-- ==== Sys2Proof/Word.lean ====
section
/-! DEFINITION. The word types of EUVIEW-CORE and a color triple. -/

namespace Sys2Proof

/-- The unit of the PIX, IDX, CT and UM spaces and of the sink (20_memory R90). -/
abbrev Byte := BitVec 8

/-- A register of the REG space, a command word (10_state R42, 30_encoding R120). -/
abbrev Word := BitVec 32

/-- One pixel or palette color: the channels red, green, blue (30_encoding R140). -/
structure Rgb where
  r : Byte
  g : Byte
  b : Byte
deriving DecidableEq, Repr

end Sys2Proof
end

