-- ==== Sys2Proof/Syntax.lean ====
section
/-! DEFINITION. The four commands of spec/opcode_table.json, as syntax. -/

namespace Sys2Proof

/-- One constructor per row of spec/opcode_table.json (30_encoding R122). -/
inductive Instr where
  /-- RESET, word 0x0000_0001 (42_control R230). -/
  | reset
  /-- QUANT, word 0x0000_0002 (40_quantizer R150). -/
  | quant
  /-- FINDC, word 0x0000_0003 (40_quantizer R160). -/
  | findc
  /-- ENCODE scs, hdr: the start code size (a 4-bit field) and the header flag
  (30_encoding R121, 41_lzw_encoder R180). -/
  | encode (scs : Nat) (hdr : Bool)
deriving DecidableEq, Repr

end Sys2Proof
end

