-- ==== Sys2Proof/WellFormed.lean ====
section
/-! DEFINITION. Which instruction terms are commands of the machine. -/

namespace Sys2Proof

/-- The operand bounds of the assembler syntax (30_encoding R128): 0 ≤ scs ≤ 15. The values 9 to 15 are legal at
decode and end with CODESIZE at execution (30_encoding R126). -/
def Instr.wellFormed : Instr → Bool
  | .reset => true
  | .quant => true
  | .findc => true
  | .encode scs _ => decide (scs ≤ 15)

end Sys2Proof
end

