-- ==== Sys2Proof/Decode.lean ====
section
/-! DEFINITION. The command word: decoder and encoder (30_encoding R120 to R127). -/

namespace Sys2Proof

/-- Why a command word is illegal; both end with ILLCMD (30_encoding R124, R125). -/
inductive IllegalWord where
  /-- OPC is 0x00 or 0x05 to 0xFF. -/
  | opcode
  /-- A reserved bit is set: 31:8 of RESET, QUANT, FINDC; 31:13 of ENCODE. -/
  | reservedBits
deriving DecidableEq, Repr

/-- OPC, bits 7:0 (30_encoding R120). -/
def wordOpc (w : Word) : BitVec 8 := w.extractLsb' 0 8

/-- SCS, bits 11:8, unsigned and unscaled (30_encoding R121). -/
def wordScs (w : Word) : Nat := (w.extractLsb' 8 4).toNat

/-- HDR, bit 12 (30_encoding R121). -/
def wordHdr (w : Word) : Bool := w.getLsbD 12

/-- Bits 31:13, reserved in every command (30_encoding R120). -/
def wordReserved (w : Word) : BitVec 19 := w.extractLsb' 13 19

/-- Bits 31:8, which must be 0 for every opcode but ENCODE (30_encoding R124). -/
def wordUpper (w : Word) : BitVec 24 := w.extractLsb' 8 24

/-- A command without operand fields: legal when bits 31:8 are 0 (30_encoding R123). -/
def decodePlain (w : Word) (i : Instr) : Except IllegalWord Instr :=
  if wordUpper w = 0 then .ok i else .error .reservedBits

/-- The decoder, total on all 2^32 words (30_encoding R123). -/
def decode (w : Word) : Except IllegalWord Instr :=
  if wordOpc w = 0x04 then
    if wordReserved w = 0 then .ok (.encode (wordScs w) (wordHdr w)) else .error .reservedBits
  else if wordOpc w = 0x01 then decodePlain w .reset
  else if wordOpc w = 0x02 then decodePlain w .quant
  else if wordOpc w = 0x03 then decodePlain w .findc
  else .error .opcode

/-- The word of a well-formed command (30_encoding R122, R128): for ENCODE the reserved bits 0, then HDR, SCS, OPC. -/
def encode : Instr → Word
  | .reset => 0x00000001#32
  | .quant => 0x00000002#32
  | .findc => 0x00000003#32
  | .encode scs hdr => 0#19 ++ BitVec.ofBool hdr ++ BitVec.ofNat 4 scs ++ 0x04#8

/-- The command word of an opcode-table row: every command is exactly one 32-bit word (30_encoding R127), bit 0 of the
table its bit 0, the bits from nbits up 0. -/
def tableWord (nbits w : Nat) : Word := BitVec.ofNat 32 (w % 2 ^ nbits)

/-- What the decoder reads from an opcode-table row's bits. -/
def decodeTableWord (nbits w : Nat) : Option Instr :=
  match decode (tableWord nbits w) with
  | .ok i => some i
  | .error _ => none

/-! One word per command, written out bit by bit from 30_encoding R120 and R122. -/

theorem decode_reset_word : decode 0b00000000000000000000000000000001#32 = .ok .reset := by decide

theorem decode_quant_word : decode 0b00000000000000000000000000000010#32 = .ok .quant := by decide

theorem decode_findc_word : decode 0b00000000000000000000000000000011#32 = .ok .findc := by decide

/-- SCS = 0b1010, HDR = 1. -/
theorem decode_encode_word : decode 0b00000000000000000001101000000100#32 = .ok (.encode 10 true) := by decide

end Sys2Proof
end

