-- ==== Sys2Proof/Config.lean ====
section
/-! DEFINITION. What the source or the spec fixes (00_scope R8, R9), the open parameter P_MAXPIX, and the free values. -/

namespace Sys2Proof

/-- CT_SLOTS: the palette has 256 slots (00_scope R8). -/
def Config.ctSlots : Nat := 256

/-- SENTINEL: the color of slot 0 (00_scope R8). -/
def Config.sentinel : Rgb := ⟨105, 105, 105⟩

/-- FIRST_FREE_SLOT (00_scope R8). -/
def Config.firstFreeSlot : Nat := 1

/-- OVERFLOW_AT: a new color met while the free-slot counter has this value fails (00_scope R8). -/
def Config.overflowAt : Nat := 256

/-- MIN_MCS: minCodeSize = max(2, SCS) (00_scope R8). -/
def Config.minMcs : Nat := 2

/-- The largest legal start code size (00_scope R9, 41_lzw_encoder R181). -/
def Config.maxScs : Nat := 8

/-- MAXBITS: the ceiling of the code width (00_scope R8). -/
def Config.maxBits : Nat := 12

/-- The code space: 4096 codes of at most 12 bits (00_scope R8). -/
def Config.codeSpace : Nat := 4096

/-- PKT_MAX: the data bytes of a full sub-block (00_scope R8). -/
def Config.pktMax : Nat := 254

/-- HSIZE: the slots of the dictionary's hash table (00_scope R9). -/
def Config.hSize : Nat := 5003

/-- HSHIFT: the shift of the primary hash (00_scope R9). -/
def Config.hShift : Nat := 4

/-- The constant of the ID register (10_state R52). -/
def Config.idWord : Word := 0x45550001#32

/-- How the sink answers one byte offered to it (20_memory R105): it accepts it, rejects it, or never answers. -/
inductive SinkAnswer where
  | accept
  | reject
  | silent
deriving DecidableEq, Repr, Inhabited

/-- FREE VALUE (DESIGN CHOICE log 1): P_MAXPIX less one. Nothing is known of it. -/
opaque Config.maxPixLessOne : Nat

/-- P_MAXPIX, an open parameter of the spec, an integer ≥ 1 (00_scope R9, decision D8). -/
def Config.maxPix : Nat := Config.maxPixLessOne + 1

/-- FREE VALUE (DESIGN CHOICE log 3): the sink's answer to the n-th byte ever offered, where State lists no answer for it
(93_implementation_defined U8: any value, one draw per byte). -/
opaque Config.sinkAnswer : Nat → SinkAnswer

/-- FREE VALUE (DESIGN CHOICE log 8): what the 32-bit ENC_BYTES holds once the count no longer fits; the arguments are the number of
bytes ever offered and the count. -/
opaque Config.encBytesBeyond : Nat → Nat → Word

end Sys2Proof
end

