-- ==== Sys2Proof/Machine/State.lean ====
section
/-! DEFINITION. The state of the machine: the core's registers and arrays, the sink, and the host's pending accesses. -/

namespace Sys2Proof.Machine

/-- An array of cells that may hold no value (20_memory R97): the cells that hold one, as (offset, byte), offsets
strictly rising. -/
abbrev Memory := List Host.Cell

/-- The canonical form: offsets strictly rising. An unlisted cell holds no value, and no listed cell reads as that. -/
def Memory.wf : Memory → Bool
  | [] => true
  | [_] => true
  | a :: b :: m => decide (a.1 < b.1) && Memory.wf (b :: m)

/-- The five address spaces (20_memory R90). -/
inductive Space where
  | reg
  | pix
  | idx
  | ct
  | um
deriving DecidableEq, Repr

/-- The registers of the REG space (10_state R42). -/
inductive Reg where
  | cmd
  | status
  | errInfo
  | frameW
  | frameH
  | nColors
  | fcTarget
  | fcResult
  | encBytes
  | encMcs
  | id
  | reserved
deriving DecidableEq, Repr

/-- The error of the last command (60_exceptions R240). The codes 9 to 15 are never reported. -/
inductive Err where
  | noError
  | illCmd
  | failed
  | size
  | codeSize
  | notValid
  | indexRange
  | paletteOverflow
  | sinkFail
deriving DecidableEq, Repr

/-- One thing the host does (30_encoding R129; 20_memory R106; 10_state R77). A width is a number of bytes; a byte
access carries its byte in bits 7:0 of the data (DESIGN CHOICE log 10). -/
inductive HostOp where
  /-- A bus read. -/
  | read (space : Space) (offset width : Nat)
  /-- A bus write; a 32-bit write to REG offset 0 starts a command (10_state R43). -/
  | write (space : Space) (offset width : Nat) (data : Word)
  /-- A byte of the host's own container records, offered to the sink (20_memory R106). -/
  | sinkWrite (byte : Byte)
  /-- Power-on reset (10_state R77; 60_exceptions R264). -/
  | powerOn
deriving DecidableEq, Repr

/-- The sink agent (20_memory R105). -/
structure Sink where
  /-- The bytes accepted so far, oldest first (10_state R59). -/
  history : List Byte
  /-- The answers to the next bytes where they are known, next first; the model's own field (DESIGN CHOICE log 3). -/
  answers : List SinkAnswer
  /-- How many bytes have been offered; the model's own field, what free answers are drawn from (DESIGN CHOICE log 3). -/
  offered : Nat
deriving DecidableEq, Repr

/-- The whole machine. Reserved register bits read 0 and ignore writes (10_state R57), so they are not stored. -/
structure State where
  /-- STATUS.TV (10_state R45). -/
  tv : Bool
  /-- STATUS.IV (10_state R46). -/
  iv : Bool
  /-- STATUS.FAIL (10_state R47). -/
  fail : Bool
  /-- STATUS.ERR (10_state R49). -/
  err : Err
  /-- ERR_INFO (10_state R50). -/
  errInfo : Word
  /-- FRAME_W, bits 15:0 (10_state R51). -/
  frameW : BitVec 16
  /-- FRAME_H, bits 15:0 (10_state R51). -/
  frameH : BitVec 16
  /-- NCOLORS, bits 8:0 (10_state R48). -/
  nColors : BitVec 9
  /-- FC_TARGET, bits 23:0 (10_state R53). -/
  fcTarget : BitVec 24
  /-- FC_RESULT, bits 8:0 (10_state R54). -/
  fcResult : BitVec 9
  /-- ENC_BYTES (10_state R55). -/
  encBytes : Word
  /-- ENC_MCS, bits 3:0 (10_state R56). -/
  encMcs : BitVec 4
  /-- PIX (10_state R58, 20_memory R92). -/
  pix : Memory
  /-- IDX (10_state R58, 20_memory R93). -/
  idx : Memory
  /-- CT (10_state R58, 20_memory R94). -/
  ct : Memory
  /-- UM, eight mask bits a byte (10_state R58, 20_memory R94). -/
  um : Memory
  /-- The sink on the OUT port (60_exceptions R257). -/
  sink : Sink
  /-- The host's accesses still to be performed, next first; the model's own field (DESIGN CHOICE log 2). -/
  host : List HostOp
  /-- The values the host's reads returned, oldest first; the model's own field (DESIGN CHOICE log 2). -/
  reads : List Word
  /-- P_MAXPIX of this machine (00_scope R9); no step changes it (DESIGN CHOICE log 1). -/
  maxPix : Nat
deriving DecidableEq, Repr

/-- Why the machine stops. -/
inductive Fault where
  /-- A read of a cell that holds no value (20_memory R97; 93_implementation_defined U1). Raised by QUANT reading PIX,
  ENCODE reading IDX, FINDC reading UM and CT, and a host read. Safe: the hardware returns some byte and goes on, the
  model proves nothing of it. -/
  | noValue (space : Space) (offset : Nat)
  /-- The sink never answers a byte, so the command never ends (20_memory R105; 93_implementation_defined U9: stuck).
  Raised by ENCODE and by the host's own sink write. Safe: there is no next state on the hardware either. -/
  | sinkSilent
deriving DecidableEq, Repr

/-- Why an instruction has no meaning. -/
inductive Refusal where
  /-- The instruction is not modelled. Raised by no arm of this model. Safe: the run stops there. -/
  | notModelled (mnemonic : String)
deriving DecidableEq, Repr

/-- The machine after power-on (10_state R42, R77; 70_reset_and_hazards R280): the reset values of the registers, no
cell with a value. The sink and the host have done nothing yet (logs 2, 3, 4), and P_MAXPIX is open (DESIGN CHOICE log 1). -/
def State.reset : State where
  tv := false
  iv := false
  fail := false
  err := .noError
  errInfo := 0
  frameW := 0
  frameH := 0
  nColors := 0
  fcTarget := 0
  fcResult := 0x100
  encBytes := 0
  encMcs := 0
  pix := []
  idx := []
  ct := []
  um := []
  sink := { history := [], answers := [], offered := 0 }
  host := []
  reads := []
  maxPix := Config.maxPix

end Sys2Proof.Machine
end

