-- ==== Sys2Proof/Machine/Flags.lean ====
section
/-! DEFINITION. The flags and the error code as the host reads them (10_state R44 to R49, R54, R75). -/

namespace Sys2Proof.Machine

/-- The code of an error in STATUS.ERR (60_exceptions R240). -/
def Err.code : Err → BitVec 4
  | .noError => 0
  | .illCmd => 1
  | .failed => 2
  | .size => 3
  | .codeSize => 4
  | .notValid => 5
  | .indexRange => 6
  | .paletteOverflow => 7
  | .sinkFail => 8

/-- STATUS as one word: ERR in bits 7:4, FAIL, IV and TV in bits 2, 1 and 0, every other bit 0 (10_state R44). -/
def statusWord (s : State) : Word :=
  0#24 ++ s.err.code ++ 0#1 ++ BitVec.ofBool s.fail ++ BitVec.ofBool s.iv ++ BitVec.ofBool s.tv

/-- FC_RESULT's no-table signal: NOTABLE = 1, index 0 (10_state R54). -/
def noTableResult : BitVec 9 := 0x100

/-- FC_RESULT for a chosen slot: NOTABLE = 0 (10_state R54). -/
def slotResult (slot : Nat) : BitVec 9 := BitVec.ofNat 9 slot

/-- A completed QUANT: TV = 1, IV = 1, NCOLORS the final free-slot counter (10_state R45, R46, R48). -/
def markTableValid (nextFree : Nat) (s : State) : State :=
  { s with tv := true, iv := true, nColors := BitVec.ofNat 9 nextFree }

/-- No usable table and no usable stream: TV = 0, IV = 0, NCOLORS = 0 (10_state R45, R46, R48). -/
def markTableInvalid (s : State) : State :=
  { s with tv := false, iv := false, nColors := 0 }

end Sys2Proof.Machine
end

