-- ==== Sys2Proof/Machine/Ops.lean ====
section
/-! DEFINITION. The named operations over memory, registers and the sink; ending a command with an error (`raise`) and
without one (`complete`); the two resets. -/

namespace Sys2Proof.Machine

/-! ## Cells -/

/-- What a cell that is not listed reads as: no value (20_memory R97). -/
def Memory.unlisted : Option Byte := none

/-- The byte a cell holds, if it holds one. -/
def Memory.read : Memory → Nat → Option Byte
  | [], _ => Memory.unlisted
  | (x, v) :: m, a => if x = a then some v else Memory.read m a

/-- The cell at `a` gets the byte `v`; the canonical form is kept. -/
def Memory.write : Memory → Nat → Byte → Memory
  | [], a, v => [(a, v)]
  | (x, w) :: m, a, v =>
    if a < x then (a, v) :: (x, w) :: m
    else if a = x then (a, v) :: m
    else (x, w) :: Memory.write m a v

/-- The cells at offsets 0 to n-1 are left with no value (20_memory R97). -/
def Memory.dropBelow (m : Memory) (n : Nat) : Memory :=
  m.filter fun c => decide (n ≤ c.1)

/-- The array behind an address space; REG has none. -/
def State.array (s : State) : Space → Memory
  | .reg => []
  | .pix => s.pix
  | .idx => s.idx
  | .ct => s.ct
  | .um => s.um

/-- MemRead of one byte: reading a cell that holds no value is a model fault (00_scope R12, 20_memory R97). -/
def readCell (space : Space) (offset : Nat) (s : State) : Except Fault Byte :=
  match (s.array space).read offset with
  | some b => .ok b
  | none => .error (.noValue space offset)

/-- The size of an address space in bytes (20_memory R90). -/
def State.spaceSize (s : State) : Space → Nat
  | .reg => 64
  | .pix => 3 * s.maxPix
  | .idx => s.maxPix
  | .ct => 768
  | .um => 32

/-! ## Registers -/

/-- The pixel count N of the frame, exact (10_state R51). -/
def State.pixelCount (s : State) : Nat := s.frameW.toNat * s.frameH.toNat

/-- The register at a word offset of the REG space (10_state R42, 20_memory R91). -/
def regAt : Nat → Reg
  | 0x00 => .cmd
  | 0x04 => .status
  | 0x08 => .errInfo
  | 0x0C => .frameW
  | 0x10 => .frameH
  | 0x14 => .nColors
  | 0x18 => .fcTarget
  | 0x1C => .fcResult
  | 0x20 => .encBytes
  | 0x24 => .encMcs
  | 0x28 => .id
  | _ => .reserved

/-- What a register reads as; CMD and the reserved registers and bits read 0 (10_state R43 to R57). -/
def readReg (r : Reg) (s : State) : Word :=
  match r with
  | .cmd => 0
  | .status => statusWord s
  | .errInfo => s.errInfo
  | .frameW => s.frameW.setWidth 32
  | .frameH => s.frameH.setWidth 32
  | .nColors => s.nColors.setWidth 32
  | .fcTarget => s.fcTarget.setWidth 32
  | .fcResult => s.fcResult.setWidth 32
  | .encBytes => s.encBytes
  | .encMcs => s.encMcs.setWidth 32
  | .id => Config.idWord
  | .reserved => 0

/-- A host write to a register other than CMD: FRAME_W, FRAME_H and FC_TARGET take their defined bits, a write to any
other register is ignored (10_state R42, R51, R53, R57; 20_memory R96). A write to CMD starts a command
(`hostWrite`) and stores nothing. -/
def writeReg (r : Reg) (v : Word) (s : State) : State :=
  match r with
  | .frameW => { s with frameW := v.setWidth 16 }
  | .frameH => { s with frameH := v.setWidth 16 }
  | .fcTarget => { s with fcTarget := v.setWidth 24 }
  | .cmd => s
  | .status => s
  | .errInfo => s
  | .nColors => s
  | .fcResult => s
  | .encBytes => s
  | .encMcs => s
  | .id => s
  | .reserved => s

/-- Every register takes its reset value; arrays, sink and host are not touched (42_control R230, R231). -/
def resetRegisters (s : State) : State :=
  { s with
    tv := false, iv := false, fail := false, err := .noError, errInfo := 0, frameW := 0, frameH := 0, nColors := 0,
    fcTarget := 0, fcResult := noTableResult, encBytes := 0, encMcs := 0 }

/-- Power-on reset: the registers reset and no cell of any array holds a value; the sink and what the host still does
are not the core's (10_state R77, DESIGN CHOICE log 15). -/
def powerOnReset (s : State) : State :=
  { resetRegisters s with pix := [], idx := [], ct := [], um := [] }

/-! ## How a command ends -/

/-- A command that completed: ERR and ERR_INFO are written 0 (10_state R49, R50). There is no other return from an
error than the next command (60_exceptions R251). -/
def complete (s : State) : State := { s with err := .noError, errInfo := 0 }

/-- The effects of an error beside ERR and ERR_INFO (60_exceptions R241 to R248): only PALETTE_OVERFLOW and SINK_FAIL
have any. N is the frame's pixel count. -/
def errorEffects (e : Err) (s : State) : State :=
  match e with
  | .paletteOverflow =>
    { markTableInvalid s with
      ct := [], um := [], idx := s.idx.dropBelow s.pixelCount, pix := s.pix.dropBelow (3 * s.pixelCount) }
  | .sinkFail =>
    { markTableInvalid s with fail := true, ct := [], um := [], idx := s.idx.dropBelow s.pixelCount }
  | .noError => s
  | .illCmd => s
  | .failed => s
  | .size => s
  | .codeSize => s
  | .notValid => s
  | .indexRange => s

/-- `raise E(info)`, the one way a command ends with an error: its state effects, then ERR and ERR_INFO; control
returns to the host, with no vector and no mode change (00_scope R14, 60_exceptions R249). -/
def raise (e : Err) (info : Word) (s : State) : State :=
  { errorEffects e s with err := e, errInfo := info }

/-- The second clause of the decode: in the failed state every legal command but RESET ends with FAILED
(30_encoding R123, 60_exceptions R242; DEDUCED log 16). -/
def unlessFailed (s : State) (act : Host.Outcome State Fault Refusal) : Host.Outcome State Fault Refusal :=
  if s.fail then .next (raise .failed 0 s) else act

/-! ## The sink port -/

/-- The sink's answer to the next byte offered: the listed one, or a free value (20_memory R105, DESIGN CHOICE log 3). -/
def Sink.nextAnswer (k : Sink) : SinkAnswer :=
  match k.answers with
  | a :: _ => a
  | [] => Config.sinkAnswer k.offered

/-- One byte has been offered. -/
def Sink.advance (k : Sink) : Sink :=
  { k with answers := k.answers.tail, offered := k.offered + 1 }

/-- One byte has been offered and accepted (10_state R59). -/
def Sink.accept (b : Byte) (k : Sink) : Sink :=
  { k.advance with history := k.history ++ [b] }

/-- How a run of offered bytes ends. -/
inductive SinkRun where
  /-- The sink accepted every byte. -/
  | allAccepted (sink : Sink)
  /-- It accepted some bytes and rejected the next; nothing more is offered (20_memory R105). -/
  | rejected (accepted : Nat) (sink : Sink)
  /-- It never answers some byte (93_implementation_defined U9). -/
  | silent
deriving DecidableEq, Repr

/-- SinkWrite of each byte in order (00_scope R13, 20_memory R105); `n` counts the bytes accepted before. -/
def Sink.offerAll : List Byte → Nat → Sink → SinkRun
  | [], _, k => .allAccepted k
  | b :: bs, n, k =>
    match k.nextAnswer with
    | .accept => Sink.offerAll bs (n + 1) (k.accept b)
    | .reject => .rejected n k.advance
    | .silent => .silent

/-- ENC_BYTES after `n` accepted bytes, `offered` bytes having been offered ever: the count, where 32 bits hold it
(10_state R55), and a free value beyond (DESIGN CHOICE log 8). -/
def encByteCount (offered n : Nat) : Word :=
  if n < 2 ^ 32 then BitVec.ofNat 32 n else Config.encBytesBeyond offered n

end Sys2Proof.Machine
end

