-- ==== Sys2Proof/Machine/Operands.lean ====
section
/-! DEFINITION. The operands of the commands: pixels, palette slots, mask bits, the target color (10_state R40). -/

namespace Sys2Proof.Machine

/-- The 24-bit color key, red in the high part (30_encoding R141). -/
def colorKey (c : Rgb) : BitVec 24 := c.r ++ c.g ++ c.b

/-- The color at a byte offset of an array: three reads, red, green, blue (20_memory R92, R94). -/
def readRgb (space : Space) (offset : Nat) (s : State) : Except Fault Rgb :=
  match readCell space offset s with
  | .error f => .error f
  | .ok r =>
    match readCell space (offset + 1) s with
    | .error f => .error f
    | .ok g =>
      match readCell space (offset + 2) s with
      | .error f => .error f
      | .ok b => .ok ⟨r, g, b⟩

/-- Pixel k of PIX (20_memory R92). -/
def readPixel (k : Nat) (s : State) : Except Fault Rgb := readRgb .pix (3 * k) s

/-- Slot i of CT (20_memory R94). -/
def readSlot (i : Nat) (s : State) : Except Fault Rgb := readRgb .ct (3 * i) s

/-- UM[i]: bit (i mod 8) of the byte at offset (i div 8) (20_memory R94). -/
def readUsed (i : Nat) (s : State) : Except Fault Bool :=
  match readCell .um (i / 8) s with
  | .error f => .error f
  | .ok b => .ok (b.getLsbD (i % 8))

/-- UM[i] ← 1 in a mask whose bytes all hold values (20_memory R94, DEDUCED log 14). -/
def setUsed (um : Memory) (i : Nat) : Memory :=
  um.write (i / 8) (((um.read (i / 8)).getD 0) ||| BitVec.ofNat 8 (1 <<< (i % 8)))

/-- The three cells of slot i get a color (20_memory R94). -/
def writeSlot (ct : Memory) (i : Nat) (c : Rgb) : Memory :=
  ((ct.write (3 * i) c.r).write (3 * i + 1) c.g).write (3 * i + 2) c.b

/-- The target color of FINDC (10_state R53). -/
def State.target (s : State) : Rgb :=
  ⟨s.fcTarget.extractLsb' 16 8, s.fcTarget.extractLsb' 8 8, s.fcTarget.extractLsb' 0 8⟩

/-- The square of a signed channel difference, exact (40_quantizer R162). -/
def channelDist (a b : Byte) : Nat :=
  (((a.toNat : Int) - (b.toNat : Int)) * ((a.toNat : Int) - (b.toNat : Int))).toNat

/-- The squared Euclidean distance of two colors (40_quantizer R162). -/
def colorDist (t c : Rgb) : Nat := channelDist t.r c.r + channelDist t.g c.g + channelDist t.b c.b

/-- minCodeSize m = max(2, SCS) (41_lzw_encoder R182). -/
def minCodeSize (scs : Nat) : Nat := max Config.minMcs scs

/-- initBits = m + 1 (41_lzw_encoder R182). -/
def initBits (m : Nat) : Nat := m + 1

/-- CLEAR = 1 << m (41_lzw_encoder R182). -/
def clearCode (m : Nat) : Nat := 1 <<< m

/-- EOI = CLEAR + 1 (41_lzw_encoder R182). -/
def eoiCode (m : Nat) : Nat := clearCode m + 1

end Sys2Proof.Machine
end

