-- ==== Sys2Proof/Machine/Control.lean ====
section
/-! DEFINITION. The control command RESET (42_control R230 to R232). -/

namespace Sys2Proof.Machine

/-- RESET: every register its reset value, accepted in the failed state too; no array cell, no byte of the sink's
history changes (42_control R230, R231). -/
def execReset (s : State) : Host.Outcome State Fault Refusal := .next (resetRegisters s)

end Sys2Proof.Machine
end

