-- ==== Sys2Proof/Machine/Lzw.lean ====
section
/-! DEFINITION. The procedures of the LZW encoder unit, as one ENCODE runs them (41_lzw_encoder R182 to R193). They do not
depend on the sink: they give the bytes passed to Emit, in order, and Machine/Encoder.lean offers them (DEDUCED log 13). -/

namespace Sys2Proof.Machine

/-- The state of one ENCODE run (10_state R63 to R68). -/
structure Lzw where
  /-- The dictionary, as an exact map from (prefix code, next index) to the assigned code (41_lzw_encoder R195, DEDUCED log 7). -/
  dict : List ((Nat × Nat) × Nat)
  /-- The next code to be assigned. -/
  freeEnt : Nat
  /-- The current code width. -/
  nBits : Nat
  /-- A table clear has happened and the width is still to be reset. -/
  clearFlag : Bool
  /-- The bit accumulator. -/
  acc : Nat
  /-- Its valid bits. -/
  accBits : Nat
  /-- The packet, `pkt[0 .. pktLen-1]`. -/
  pkt : List Byte
  /-- The bytes passed to Emit so far, oldest first. -/
  out : List Byte
deriving DecidableEq, Repr

/-- FlushPacket: a packet that is not empty is emitted as a sub-block, its length first (41_lzw_encoder R192). -/
def flushPacket (z : Lzw) : Lzw :=
  if 0 < z.pkt.length then
    { z with out := z.out ++ BitVec.ofNat 8 z.pkt.length :: z.pkt, pkt := [] }
  else z

/-- CharOut: the byte is appended to the packet, and a packet of 254 bytes is flushed (41_lzw_encoder R192). -/
def charOut (b : Byte) (z : Lzw) : Lzw :=
  if z.pkt.length + 1 = Config.pktMax then flushPacket { z with pkt := z.pkt ++ [b] }
  else { z with pkt := z.pkt ++ [b] }

/-- The low byte of the accumulator. -/
def lowByte (acc : Nat) : Byte := BitVec.ofNat 8 (acc &&& 0xFF)

/-- The loop of OutputCode that moves `n` complete bytes out of the accumulator (41_lzw_encoder R191). -/
def moveBytes : Nat → Lzw → Lzw
  | 0, z => z
  | n + 1, z => moveBytes n { charOut (lowByte z.acc) z with acc := z.acc >>> 8, accBits := z.accBits - 8 }

/-- The width update after a code has been written and complete bytes moved out (41_lzw_encoder R188). -/
def updateWidth (m : Nat) (z : Lzw) : Lzw :=
  if z.clearFlag then { z with nBits := initBits m, clearFlag := false }
  else if (1 <<< z.nBits) - 1 < z.freeEnt ∧ z.nBits < Config.maxBits then { z with nBits := z.nBits + 1 }
  else z

/-- The final flush: the remaining bits as one byte padded with 0, then the packet (41_lzw_encoder R193). -/
def finalFlush (z : Lzw) : Lzw :=
  if 0 < z.accBits then flushPacket (charOut (lowByte z.acc) z) else flushPacket z

/-- The first part of OutputCode: the code into the accumulator, least significant bit first, complete bytes out; the
accumulator holds accBits div 8 of them (41_lzw_encoder R191). -/
def writeCode (code : Nat) (z : Lzw) : Lzw :=
  moveBytes ((z.accBits + z.nBits) / 8)
    { z with acc := z.acc ||| (code <<< z.accBits), accBits := z.accBits + z.nBits }

/-- OutputCode (41_lzw_encoder R191). -/
def outputCode (m code : Nat) (z : Lzw) : Lzw :=
  if code = eoiCode m then finalFlush (updateWidth m (writeCode code z)) else updateWidth m (writeCode code z)

/-- ClearBlock: an empty dictionary, freeEnt at its first value, clearFlag, then CLEAR (41_lzw_encoder R190). -/
def clearBlock (m : Nat) (z : Lzw) : Lzw :=
  outputCode m (clearCode m) { z with dict := [], freeEnt := eoiCode m + 1, clearFlag := true }

/-- What follows the output of `ent` on a miss: the pair (ent, c) gets the next code, or, with the code space
exhausted, the table is cleared (41_lzw_encoder R186, R187). -/
def insertOrClear (m ent c : Nat) (z : Lzw) : Lzw :=
  if z.freeEnt < Config.codeSpace then
    { z with dict := ((ent, c), z.freeEnt) :: z.dict, freeEnt := z.freeEnt + 1 }
  else clearBlock m z

/-- The scan of the indices after the first with the current prefix code; the last prefix code and the state
(41_lzw_encoder R184, R185). -/
def lzwScan (m : Nat) : List Byte → Nat → Lzw → Nat × Lzw
  | [], ent, z => (ent, z)
  | c :: cs, ent, z =>
    match z.dict.lookup (ent, c.toNat) with
    | some v => lzwScan m cs v z
    | none => lzwScan m cs c.toNat (insertOrClear m ent c.toNat (outputCode m ent z))

/-- The start of the run phase: with the header flag the code-size byte m is the first byte (41_lzw_encoder R182, R183). -/
def lzwStart (m : Nat) (hdr : Bool) : Lzw where
  dict := []
  freeEnt := clearCode m + 2
  nBits := initBits m
  clearFlag := false
  acc := 0
  accBits := 0
  pkt := []
  out := if hdr then [BitVec.ofNat 8 m] else []

/-- The codes between the first CLEAR and the terminator (41_lzw_encoder R189, R198). -/
def lzwStream (m : Nat) (ids : List Byte) (z : Lzw) : Lzw :=
  match ids with
  | [] => outputCode m (eoiCode m) z
  | c :: cs =>
    match lzwScan m cs c.toNat z with
    | (ent, z') => outputCode m (eoiCode m) (outputCode m ent z')

/-- Every byte one ENCODE of the indices offers to the sink, in order, the terminator last (41_lzw_encoder R180). -/
def imageData (m : Nat) (hdr : Bool) (ids : List Byte) : List Byte :=
  (lzwStream m ids (outputCode m (clearCode m) (lzwStart m hdr))).out ++ [0]

end Sys2Proof.Machine
end

