-- ==== Sys2Proof/Machine/Encoder.lean ====
section
/-! DEFINITION. ENCODE: its checks, its run phase and its ends (41_lzw_encoder R180, R181, R194, R197). -/

namespace Sys2Proof.Machine

/-- How the pre-scan of the index stream ends. -/
inductive IndexScan where
  /-- Every index is below CLEAR. -/
  | inRange (ids : List Byte)
  /-- Position k is the first with an index at or above CLEAR. -/
  | outOfRange (k : Nat)
  /-- A cell of the stream holds no value. -/
  | stop (f : Fault)
deriving DecidableEq, Repr

/-- The pre-scan of `n` indices from position k (41_lzw_encoder R181). -/
def indexScan (s : State) (clear : Nat) : Nat → Nat → IndexScan
  | 0, _ => .inRange []
  | n + 1, k =>
    match readCell .idx k s with
    | .error f => .stop f
    | .ok b =>
      if clear ≤ b.toNat then .outOfRange k
      else
        match indexScan s clear n (k + 1) with
        | .inRange ids => .inRange (b :: ids)
        | .outOfRange j => .outOfRange j
        | .stop f => .stop f

/-- What the run phase leaves after `n` accepted bytes: ENC_BYTES, ENC_MCS and the sink (41_lzw_encoder R181, R194). -/
def encodeProgress (m n : Nat) (k : Sink) (s : State) : State :=
  { s with encBytes := encByteCount k.offered n, encMcs := BitVec.ofNat 4 m, sink := k }

/-- A completed ENCODE: the index stream is consumed (41_lzw_encoder R197). -/
def encodeComplete (s : State) : State :=
  complete { s with idx := s.idx.dropBelow s.pixelCount, iv := false }

/-- The run phase: the bytes are offered to the sink in order; a rejected byte ends the command with SINK_FAIL and the
count of accepted bytes (41_lzw_encoder R194, 60_exceptions R248), a sink that never answers leaves it stuck. -/
def encodeRun (m : Nat) (bytes : List Byte) (s : State) : Host.Outcome State Fault Refusal :=
  match s.sink.offerAll bytes 0 with
  | .allAccepted k => .next (encodeComplete (encodeProgress m bytes.length k s))
  | .rejected n k => .next (raise .sinkFail (encByteCount k.offered n) (encodeProgress m n k s))
  | .silent => .fault .sinkSilent

/-- ENCODE (41_lzw_encoder R180): the checks in the order SIZE, CODESIZE, NOTVALID, INDEX_RANGE (R181), then the run. -/
def execEncode (scs : Nat) (hdr : Bool) (s : State) : Host.Outcome State Fault Refusal :=
  unlessFailed s <|
    if s.maxPix < s.pixelCount then .next (raise .size (BitVec.ofNat 32 s.pixelCount) s)
    else if Config.maxScs < scs then .next (raise .codeSize 0 s)
    else if s.iv then
      match indexScan s (clearCode (minCodeSize scs)) s.pixelCount 0 with
      | .stop f => .fault f
      | .outOfRange k => .next (raise .indexRange (BitVec.ofNat 32 k) s)
      | .inRange ids => encodeRun (minCodeSize scs) (imageData (minCodeSize scs) hdr ids) s
    else .next (raise .notValid 0 s)

end Sys2Proof.Machine
end

