-- ==== Sys2Proof/Machine/Quantizer.lean ====
section
/-! DEFINITION. The quantizer unit: QUANT and FINDC (40_quantizer). -/

namespace Sys2Proof.Machine

/-! ## QUANT -/

/-- The state of one QUANT run (10_state R60) with the arrays it writes. -/
structure Quantizer where
  /-- CMAP: the slot of each color key seen. -/
  cmap : List (BitVec 24 × Nat)
  /-- The free-slot counter. -/
  nextFree : Nat
  ct : Memory
  um : Memory
  idx : Memory
deriving DecidableEq, Repr

/-- CT after initialisation: slot 0 is the sentinel, no other slot holds a value (40_quantizer R151). -/
def initialTable : Memory := writeSlot [] 0 Config.sentinel

/-- UM after initialisation: UM[0] = 1, every other bit 0 (40_quantizer R151). -/
def initialMask : Memory := (List.range 32).map fun q => (q, if q = 0 then 1#8 else 0#8)

/-- The start of a QUANT run; IDX is as it stands (40_quantizer R151). -/
def quantStart (idx : Memory) : Quantizer where
  cmap := []
  nextFree := Config.firstFreeSlot
  ct := initialTable
  um := initialMask
  idx := idx

/-- One pixel of color `c` at position k: the index of a color seen before, or the next free slot; nothing when a new
color finds the counter at 256 (40_quantizer R152, R153, R154). -/
def quantPixel (k : Nat) (c : Rgb) (q : Quantizer) : Option Quantizer :=
  match q.cmap.lookup (colorKey c) with
  | some i => some { q with idx := q.idx.write k (BitVec.ofNat 8 i) }
  | none =>
    if q.nextFree = Config.overflowAt then none
    else
      some {
        cmap := (colorKey c, q.nextFree) :: q.cmap
        nextFree := q.nextFree + 1
        ct := writeSlot q.ct q.nextFree c
        um := setUsed q.um q.nextFree
        idx := q.idx.write k (BitVec.ofNat 8 q.nextFree) }

/-- How the scan ends. -/
inductive QuantScan where
  /-- Every pixel has its index. -/
  | done (q : Quantizer)
  /-- Pixel k needs a 257th slot. -/
  | overflow (k : Nat)
  /-- A pixel's cell holds no value. -/
  | stop (f : Fault)
deriving DecidableEq, Repr

/-- The scan of `n` pixels from position k, in increasing k; pixels after a failing one are not read
(40_quantizer R152, R159). -/
def quantScan (s : State) : Nat → Nat → Quantizer → QuantScan
  | 0, _, q => .done q
  | n + 1, k, q =>
    match readPixel k s with
    | .error f => .stop f
    | .ok c =>
      match quantPixel k c q with
      | none => .overflow k
      | some q' => quantScan s n (k + 1) q'

/-- A completed QUANT: the palette, the mask, the index stream, and PIX[0..3N-1] left with no value
(40_quantizer R156, 20_memory R112). -/
def quantComplete (q : Quantizer) (s : State) : State :=
  complete
    (markTableValid q.nextFree
      { s with ct := q.ct, um := q.um, idx := q.idx, pix := s.pix.dropBelow (3 * s.pixelCount) })

/-- QUANT (40_quantizer R150). -/
def execQuant (s : State) : Host.Outcome State Fault Refusal :=
  unlessFailed s <|
    if s.maxPix < s.pixelCount then .next (raise .size (BitVec.ofNat 32 s.pixelCount) s)
    else
      match quantScan s s.pixelCount 0 (quantStart s.idx) with
      | .stop f => .fault f
      | .overflow k => .next (raise .paletteOverflow (BitVec.ofNat 32 k) s)
      | .done q => .next (quantComplete q s)

/-! ## FINDC -/

/-- The scan of `n` slots from slot i upward with the best slot and its distance so far; only slots in use take part,
and a tie keeps the lower slot (40_quantizer R160, R163). -/
def nearest (s : State) (t : Rgb) : Nat → Nat → Nat → Nat → Except Fault Nat
  | 0, _, best, _ => .ok best
  | n + 1, i, best, dmin =>
    match readUsed i s with
    | .error f => .error f
    | .ok false => nearest s t n (i + 1) best dmin
    | .ok true =>
      match readSlot i s with
      | .error f => .error f
      | .ok c =>
        if colorDist t c < dmin then nearest s t n (i + 1) i (colorDist t c)
        else nearest s t n (i + 1) best dmin

/-- FINDC (40_quantizer R160, R161): without a table the no-table result, which is no error. The first dmin, 2^24, is
above every distance (R162). -/
def execFindc (s : State) : Host.Outcome State Fault Refusal :=
  unlessFailed s <|
    if s.tv then
      match nearest s s.target Config.ctSlots 0 0 (2 ^ 24) with
      | .error f => .fault f
      | .ok best => .next (complete { s with fcResult := slotResult best })
    else .next (complete { s with fcResult := noTableResult })

end Sys2Proof.Machine
end

