-- ==== Sys2Proof/Machine/Dispatch.lean ====
section
/-! DEFINITION. The one match over the commands (30_encoding R123). -/

namespace Sys2Proof.Machine

def exec (i : Instr) (s : State) : Host.Outcome State Fault Refusal :=
  match i with
  | .reset => Sys2Proof.Machine.execReset s
  | .quant => Sys2Proof.Machine.execQuant s
  | .findc => Sys2Proof.Machine.execFindc s
  | .encode scs hdr => Sys2Proof.Machine.execEncode scs hdr s

end Sys2Proof.Machine
end

