-- ==== Sys2Proof/Machine/Bus.lean ====
section
/-! DEFINITION. The host bus: what each access of the host does, a command started by a write to CMD among them
(20_memory R90 to R98, 10_state R43). -/

namespace Sys2Proof.Machine

/-- The register a REG access reaches: 4 bytes wide, aligned, at most 0x3C; any other access is a bus error
(20_memory R91, R96). -/
def regAccess (offset width : Nat) : Option Reg :=
  if width = 4 ∧ offset % 4 = 0 ∧ offset ≤ 0x3C then some (regAt offset) else none

/-- Whether an array access is no bus error: one byte wide, below the space's size (20_memory R96). -/
def State.cellAccess (s : State) (space : Space) (offset width : Nat) : Bool :=
  decide (width = 1 ∧ offset < s.spaceSize space)

/-- What a bus read returns: a register, a cell's byte, or 0 on a bus error; a cell that holds no value is a fault
(20_memory R91, R96, R97). -/
def busRead (space : Space) (offset width : Nat) (s : State) : Except Fault Word :=
  match space with
  | .reg =>
    match regAccess offset width with
    | some r => .ok (readReg r s)
    | none => .ok 0
  | .pix | .idx | .ct | .um =>
    if s.cellAccess space offset width then
      match readCell space offset s with
      | .ok b => .ok (b.setWidth 32)
      | .error f => .error f
    else .ok 0

/-- A host read: the value goes to the host and nothing else changes (20_memory R95, R98). -/
def hostRead (space : Space) (offset width : Nat) (s : State) : Host.Outcome State Fault Refusal :=
  match busRead space offset width s with
  | .ok v => .next { s with reads := s.reads ++ [v] }
  | .error f => .fault f

/-- A command word written to CMD: an illegal word ends with ILLCMD, a legal one runs its command (30_encoding R123,
60_exceptions R241). -/
def runCommand (w : Word) (s : State) : Host.Outcome State Fault Refusal :=
  match decode w with
  | .ok i => exec i s
  | .error _ => .next (raise .illCmd 0 s)

/-- A host write to an array space: PIX and IDX take the byte, a write to IDX sets IV, CT and UM are read-only
(20_memory R94, R95, R96). -/
def writeCell (space : Space) (offset : Nat) (b : Byte) (s : State) : State :=
  match space with
  | .pix => { s with pix := s.pix.write offset b }
  | .idx => { s with idx := s.idx.write offset b, iv := true }
  | .reg => s
  | .ct => s
  | .um => s

/-- A host write (20_memory R95, R96, 10_state R43). -/
def hostWrite (space : Space) (offset width : Nat) (data : Word) (s : State) : Host.Outcome State Fault Refusal :=
  match space with
  | .reg =>
    match regAccess offset width with
    | some .cmd => runCommand data s
    | some r => .next (writeReg r data s)
    | none => .next s
  | .pix | .idx | .ct | .um =>
    if s.cellAccess space offset width then .next (writeCell space offset (data.setWidth 8) s) else .next s

/-- A byte of the host's own records, offered to the sink between commands: in the history when accepted
(20_memory R106, 10_state R59; DESIGN CHOICE log 11). -/
def hostSinkWrite (b : Byte) (s : State) : Host.Outcome State Fault Refusal :=
  match s.sink.offerAll [b] 0 with
  | .allAccepted k => .next { s with sink := k }
  | .rejected _ k => .next { s with sink := k }
  | .silent => .fault .sinkSilent

/-- One thing the host does, to its end (20_memory R98, R107). -/
def hostStep (op : HostOp) (s : State) : Host.Outcome State Fault Refusal :=
  match op with
  | .read space offset width => hostRead space offset width s
  | .write space offset width data => hostWrite space offset width data s
  | .sinkWrite b => hostSinkWrite b s
  | .powerOn => .next (powerOnReset s)

/-- The write of a command word to CMD (30_encoding R128). -/
def cmdWrite (w : Word) : HostOp := .write .reg 0 4 w

end Sys2Proof.Machine
end

