-- ==== Sys2Proof/Machine/Step.lean ====
section
/-! DEFINITION. One step: the host's next access, performed to its end. -/

namespace Sys2Proof.Machine

/-- One step of the machine. The oldest pending access of the host is performed whole, a command included, before the
next one (00_scope R15, 20_memory R107). With none pending the core is idle and keeps all its state
(60_exceptions R264; DESIGN CHOICE log 9). -/
def step (s : State) : Host.Outcome State Fault Refusal :=
  match s.host with
  | [] => .next s
  | op :: rest => hostStep op { s with host := rest }

/-- `s` with the host's next access the write of this word to CMD (DESIGN CHOICE log 2). -/
def State.withFetchWord (s : State) (nbits w : Nat) : State :=
  { s with host := cmdWrite (tableWord nbits w) :: s.host }

end Sys2Proof.Machine
end

