-- ==== Sys2Proof/Machine/Dictionary.lean ====
section
/-! DEFINITION. The dictionary's hash table with its double-hash probe (10_state R63, 41_lzw_encoder R195). ENCODE runs on
the exact map that R195 puts in its place (DEDUCED log 7); this is the table itself, so that the two can be compared. -/

namespace Sys2Proof.Machine

/-- A slot: nothing while htValid is 0, else htKey and htCode (10_state R63). -/
abbrev HashSlot := Option (Nat × Nat)

/-- The table: its slots by number. -/
abbrev HashTable := List HashSlot

/-- Every slot invalid (41_lzw_encoder R183, R190). -/
def emptyTable : HashTable := List.replicate Config.hSize none

/-- The key of a pair, (ent << 12) | c (41_lzw_encoder R195). -/
def hashKey (ent c : Nat) : Nat := (ent <<< 12) ||| c

/-- The primary hash, (c << HSHIFT) ^ ent (41_lzw_encoder R195). -/
def hashHome (ent c : Nat) : Nat := (c <<< Config.hShift) ^^^ ent

/-- The probe's step, from the primary index (41_lzw_encoder R195). -/
def hashDisp (home : Nat) : Nat := if home = 0 then 1 else Config.hSize - home

/-- The slot probed after i: disp downward, with wrap-around (41_lzw_encoder R195). -/
def hashNext (disp i : Nat) : Nat := if i < disp then i + Config.hSize - disp else i - disp

/-- What Lookup answers: a hit with the code and the slot, or the invalid slot where the probe ended. -/
inductive HashResult where
  | hit (code slot : Nat)
  | miss (slot : Nat)
  /-- No slot of the table ended the probe; with a free slot left this does not happen (41_lzw_encoder R195). -/
  | full
deriving DecidableEq, Repr

/-- The probe from slot i, of at most the given number of slots. -/
def hashProbe (t : HashTable) (key disp : Nat) : Nat → Nat → HashResult
  | 0, _ => .full
  | fuel + 1, i =>
    match t[i]? with
    | some (some (k, v)) => if k = key then .hit v i else hashProbe t key disp fuel (hashNext disp i)
    | some none => .miss i
    | none => .full

/-- Lookup(ent, c) (41_lzw_encoder R195). -/
def hashLookup (t : HashTable) (ent c : Nat) : HashResult :=
  hashProbe t (hashKey ent c) (hashDisp (hashHome ent c)) Config.hSize (hashHome ent c)

/-- Insert(slot, key, code) (41_lzw_encoder R195). -/
def hashInsert (t : HashTable) (slot key code : Nat) : HashTable := t.set slot (some (key, code))

/-- The insert of a pair at the slot its lookup ended in; a pair already there is left as it is (41_lzw_encoder R186). -/
def hashAdd (t : HashTable) (ent c code : Nat) : HashTable :=
  match hashLookup t ent c with
  | .miss slot => hashInsert t slot (hashKey ent c) code
  | .hit _ _ => t
  | .full => t

end Sys2Proof.Machine
end

