-- ==== Sys2Proof/Safety.lean ====
section
/-! DEFINITION. What the claims are stated in: the invariants of the machine, and the spec's declarative descriptions of a
palette, a code stream, its framing and its decoding, written without the procedures of the meanings. -/

namespace Sys2Proof.Machine

/-! ## Invariants -/

/-- Every listed offset is below `n`. -/
def Memory.below (n : Nat) (m : Memory) : Bool := m.all fun c => decide (c.1 < n)

/-- The arrays are in canonical form and inside their spaces (20_memory R90, R97). -/
structure State.MemoryInv (s : State) : Prop where
  pixWf : s.pix.wf = true
  idxWf : s.idx.wf = true
  ctWf : s.ct.wf = true
  umWf : s.um.wf = true
  pixBelow : s.pix.below (3 * s.maxPix) = true
  idxBelow : s.idx.below s.maxPix = true
  ctBelow : s.ct.below 768 = true
  umBelow : s.um.below 32 = true

/-- While TV = 1 the table is what a completed QUANT leaves (10_state R45, R48; 40_quantizer R151, R155). -/
structure State.TableInv (s : State) : Prop where
  tvIffColors : s.tv = true ↔ s.nColors ≠ 0
  colorsLe : s.nColors.toNat ≤ 256
  usedIff : s.tv = true → ∀ i < 256, readUsed i s = .ok (decide (i < s.nColors.toNat))
  slotIff : s.tv = true → ∀ off < 768, (s.ct.read off).isSome = decide (off < 3 * s.nColors.toNat)
  sentinel : s.tv = true → readSlot 0 s = .ok Config.sentinel

/-- What the flags and the result registers say of each other (10_state R47, R50, R54, R56; 60_exceptions R240, R248). -/
structure State.FlagInv (s : State) : Prop where
  failNoTable : s.fail = true → s.tv = false
  failErr : s.fail = true → s.err = .sinkFail ∨ s.err = .failed ∨ s.err = .illCmd
  sinkFailFails : s.err = .sinkFail → s.fail = true ∧ s.errInfo = s.encBytes
  overflowNoTable : s.err = .paletteOverflow → s.tv = false
  noInfo : s.err = .noError ∨ s.err = .illCmd ∨ s.err = .failed ∨ s.err = .codeSize ∨ s.err = .notValid →
    s.errInfo = 0
  fcResultLe : s.fcResult.toNat ≤ 0x100
  encMcsRange : s.encMcs = 0 ∨ (2 ≤ s.encMcs.toNat ∧ s.encMcs.toNat ≤ 8)

/-- The ranges the spec gives the encoder's per-command state between two code outputs of an ENCODE with minCodeSize m
(10_state R64, R65, R67, R68). -/
structure Lzw.InRange (m : Nat) (z : Lzw) : Prop where
  freeEntGe : clearCode m + 2 ≤ z.freeEnt
  freeEntLe : z.freeEnt ≤ 4096
  nBitsGe : initBits m ≤ z.nBits
  nBitsLe : z.nBits ≤ 12
  accBitsLe : z.accBits ≤ 7
  accLt : z.acc < 2 ^ z.accBits
  pktLenLe : z.pkt.length ≤ 253

/-! ## What commands read -/

/-- The frame's pixels are these colors: pixel k of PIX is the k-th of N (20_memory R92). -/
abbrev State.frameIs (s : State) (cs : List Rgb) : Prop :=
  cs.length = s.pixelCount ∧ ∀ k (h : k < cs.length), readPixel k s = .ok cs[k]

/-- The index stream is these bytes: IDX[k] is the k-th of N (20_memory R93). -/
abbrev State.streamIs (s : State) (ids : List Byte) : Prop :=
  ids.length = s.pixelCount ∧ ∀ k (h : k < ids.length), s.idx.read k = some ids[k]

/-- Every mask bit is readable, slot 0 is in use, and every slot in use holds a color: what FINDC reads
(40_quantizer R160, R164). -/
def State.tableReadable (s : State) : Prop :=
  readUsed 0 s = .ok true ∧
    ∀ i < 256, readUsed i s = .ok false ∨ (readUsed i s = .ok true ∧ ∃ c, readSlot i s = .ok c)

/-- The sink's answer to the j-th byte offered from now on. -/
def Sink.answerAt (k : Sink) (j : Nat) : SinkAnswer :=
  match k.answers[j]? with
  | some a => a
  | none => Config.sinkAnswer (k.offered + j)

/-- The sink after `n` more offered bytes of which it accepted these. -/
def Sink.after (k : Sink) (accepted : List Byte) (n : Nat) : Sink where
  history := k.history ++ accepted
  answers := k.answers.drop n
  offered := k.offered + n

end Sys2Proof.Machine

namespace Sys2Proof.Spec

/-! ## Palettes -/

/-- The distinct colors of a frame in first-seen order (40_quantizer R153). -/
def firstSeen : List Rgb → List Rgb
  | [] => []
  | c :: cs => c :: (firstSeen cs).filter (· ≠ c)

/-- The palette slot of a color of the frame: slots are assigned from 1 in first-seen order (40_quantizer R153). -/
def slotOf (cs : List Rgb) (c : Rgb) : Nat := (firstSeen cs).idxOf c + 1

/-! ## Code streams -/

/-- The width of code j after a CLEAR, in closed form (41_lzw_encoder R199). -/
def codeWidth (m j : Nat) : Nat := min 12 (max (m + 1) (Nat.clog 2 (2 ^ m + 2 + j)))

/-- The codes after a CLEAR, each with its width, for the indices still to come: `ent` is the current string's code and
j data codes have been output since the CLEAR, so 2^m + 2 + j is the next code to be assigned
(41_lzw_encoder R184 to R187, R189, R190, R199). -/
def codesFrom (m : Nat) : List Byte → Nat → List ((Nat × Nat) × Nat) → Nat → List (Nat × Nat)
  | [], ent, _, j => [(ent, codeWidth m j), (2 ^ m + 1, codeWidth m (j + 1))]
  | c :: cs, ent, dict, j =>
    match dict.lookup (ent, c.toNat) with
    | some v => codesFrom m cs v dict j
    | none =>
      (ent, codeWidth m j) ::
        if 2 ^ m + 2 + j < 4096 then codesFrom m cs c.toNat (((ent, c.toNat), 2 ^ m + 2 + j) :: dict) (j + 1)
        else (2 ^ m, 12) :: codesFrom m cs c.toNat [] 0

/-- The whole code stream of an index stream: CLEAR first, EOI last (30_encoding R143, 41_lzw_encoder R198). -/
def codeStream (m : Nat) (ids : List Byte) : List (Nat × Nat) :=
  (2 ^ m, m + 1) ::
    match ids with
    | [] => [(2 ^ m + 1, codeWidth m 0)]
    | c :: cs => codesFrom m cs c.toNat [] 0

/-- A code's bits, least significant first (20_memory R100). -/
def codeBits (cw : Nat × Nat) : List Bool := (List.range cw.2).map fun t => cw.1.testBit t

/-- The bits of a code stream, in stream order (20_memory R100). -/
def streamBits (codes : List (Nat × Nat)) : List Bool := codes.flatMap codeBits

/-- The number whose bits are these, least significant first. -/
def bitsToNat : List Bool → Nat
  | [] => 0
  | b :: bs => b.toNat + 2 * bitsToNat bs

/-- Stream bit s is bit (s mod 8) of byte (s div 8), padded with zero bits to whole bytes (20_memory R100, 30_encoding
R143). -/
def packBits (bits : List Bool) : List Byte :=
  (List.range ((bits.length + 7) / 8)).map fun i => BitVec.ofNat 8 (bitsToNat ((bits.drop (8 * i)).take 8))

/-- Sub-blocks of 254 bytes, then one short sub-block if bytes remain (30_encoding R145). -/
def subBlocks (p : List Byte) : List Byte :=
  ((List.range (p.length / 254)).flatMap fun i => 254#8 :: (p.drop (254 * i)).take 254) ++
    if p.length % 254 = 0 then []
    else BitVec.ofNat 8 (p.length % 254) :: p.drop (254 * (p.length / 254))

/-- The byte sequence of a completed ENCODE (30_encoding R145). -/
def framed (m : Nat) (hdr : Bool) (ids : List Byte) : List Byte :=
  (if hdr then [BitVec.ofNat 8 m] else []) ++ subBlocks (packBits (streamBits (codeStream m ids))) ++ [0]

/-! ## A GIF LZW decoder (41_lzw_encoder R200; PRESUMED log 17) -/

/-- The payload of a sub-block series that its terminator ends; at most `fuel` sub-blocks. -/
def unframe : Nat → List Byte → Option (List Byte)
  | 0, _ => none
  | _ + 1, [] => none
  | fuel + 1, len :: bs =>
    if len = 0 then (if bs = [] then some [] else none)
    else if bs.length < len.toNat then none
    else (unframe fuel (bs.drop len.toNat)).map (bs.take len.toNat ++ ·)

/-- The bits of a payload, in stream order (20_memory R100). -/
def payloadBits (p : List Byte) : List Bool := p.flatMap fun b => (List.range 8).map fun t => b.getLsbD t

/-- What a code stands for: a literal, a table entry, or the entry this code is about to define. -/
def decodeString (m code : Nat) (table : List (List Byte)) (last : Option (List Byte)) : Option (List Byte) :=
  if code < 2 ^ m then some [BitVec.ofNat 8 code]
  else
    match table[code - (2 ^ m + 2)]? with
    | some str => some str
    | none =>
      if code = 2 ^ m + 2 + table.length then last.map fun p => p ++ p.take 1 else none

/-- The table after a code that stands for `str`: the previous string with the first index of `str`, while codes
remain. -/
def decodeTable (m : Nat) (table : List (List Byte)) (last : Option (List Byte)) (str : List Byte) :
    List (List Byte) :=
  match last with
  | none => table
  | some p => if 2 ^ m + 2 + table.length < 4096 then table ++ [p ++ str.take 1] else table

/-- The decoder's loop over the bits, reading codes of the current width; at most `fuel` codes. -/
def decodeCodes (m : Nat) : Nat → List Bool → Nat → List (List Byte) → Option (List Byte) → Option (List Byte)
  | 0, _, _, _, _ => none
  | fuel + 1, bits, width, table, last =>
    if bits.length < width then none
    else
      let code := bitsToNat (bits.take width)
      let rest := bits.drop width
      if code = 2 ^ m then decodeCodes m fuel rest (m + 1) [] none
      else if code = 2 ^ m + 1 then some []
      else
        match decodeString m code table last with
        | none => none
        | some str =>
          let table' := decodeTable m table last str
          let width' := if 2 ^ m + 2 + table'.length = 2 ^ width ∧ width < 12 then width + 1 else width
          (decodeCodes m fuel rest width' table' (some str)).map (str ++ ·)

/-- The indices a standard decoder reads from a sub-block series with initial code size m. -/
def gifDecode (m : Nat) (bytes : List Byte) : Option (List Byte) :=
  match unframe bytes.length bytes with
  | none => none
  | some p => decodeCodes m (payloadBits p).length (payloadBits p) (m + 1) [] none

/-! ## The hash table against the exact map -/

/-- The table after these pairs have been inserted in order, each with its code (41_lzw_encoder R186, R195). -/
def hashFill (entries : List ((Nat × Nat) × Nat)) : Machine.HashTable :=
  entries.foldl (fun t e => Machine.hashAdd t e.1.1 e.1.2 e.2) Machine.emptyTable

end Sys2Proof.Spec
end

