-- ==== Sys2Proof/Certificates/Slice0/Obligations.lean ====
section
/-! DEFINITION. The statements for the provers, from the spec's numbered rules. -/

open Sys2Proof Sys2Proof.Machine Sys2Proof.Spec

/-! ## Command words -/

/-- Written-out words of 95_test_vectors V20 and what each decodes to. -/
def Obligations.DecodeOfWrittenWords : Prop :=
  decode 0x00000001 = .ok .reset ∧ decode 0x00000002 = .ok .quant ∧ decode 0x00000003 = .ok .findc ∧
  decode 0x00000004 = .ok (.encode 0 false) ∧ decode 0x00001804 = .ok (.encode 8 true) ∧
  decode 0x00001F04 = .ok (.encode 15 true) ∧ decode 0x00000000 = .error .opcode ∧
  decode 0x00002004 = .error .reservedBits ∧ decode 0x00000102 = .error .reservedBits ∧
  decode 0x00000005 = .error .opcode ∧ decode 0x80000001 = .error .reservedBits

/-- The decoder reads back every well-formed command from its word, with every operand. -/
def Obligations.DecodeOfEncode : Prop :=
  ∀ i : Instr, i.wellFormed = true → decode (encode i) = .ok i

/-- A word that decodes is the word of the well-formed command it decodes to: no second word means it. -/
def Obligations.EncodeOfDecode : Prop :=
  ∀ (w : Word) (i : Instr), decode w = .ok i → i.wellFormed = true ∧ encode i = w

/-- The legal words, by their bits (30_encoding R123 to R125): ENCODE with bits 31:13 zero, RESET, QUANT and FINDC with
bits 31:8 zero, and no other. -/
def Obligations.LegalWordsByBits : Prop :=
  ∀ w : Word, (∃ i, decode w = .ok i) ↔
    (w.extractLsb' 0 8 = 4#8 ∧ w.extractLsb' 13 19 = 0#19) ∨
    ((w.extractLsb' 0 8 = 1#8 ∨ w.extractLsb' 0 8 = 2#8 ∨ w.extractLsb' 0 8 = 3#8) ∧ w.extractLsb' 8 24 = 0#24)

/-! ## A step -/

/-- A step whose pending access writes a legal command word to CMD is that command's meaning, on the state with the
access taken off; so is a step after withFetchWord. -/
def Obligations.StepRunsDecodedInstruction : Prop :=
  (∀ (s : State) (w : Word) (rest : List HostOp) (i : Instr),
    s.host = .write .reg 0 4 w :: rest → decode w = .ok i → step s = exec i { s with host := rest }) ∧
  ∀ (s : State) (w : Word) (i : Instr), decode w = .ok i → step (s.withFetchWord 32 w.toNat) = exec i s

/-- 60_exceptions R241: an illegal word ends with ILLCMD, code 1, ERR_INFO 0, and nothing else changes, in any state.
A word is illegal by its opcode or by a set reserved bit. -/
def Obligations.IllegalWordRaisesIllcmd : Prop :=
  Err.illCmd.code = 1 ∧
  ∀ (s : State) (w : Word) (rest : List HostOp), s.host = .write .reg 0 4 w :: rest →
    (w.extractLsb' 0 8 = 0#8 ∨ 4#8 < w.extractLsb' 0 8 ∨ (w.extractLsb' 0 8 = 4#8 ∧ w.extractLsb' 13 19 ≠ 0#19) ∨
      (w.extractLsb' 0 8 ≠ 4#8 ∧ w.extractLsb' 8 24 ≠ 0#24)) →
    step s = .next { s with host := rest, err := .illCmd, errInfo := 0 }

/-- With no access pending the core keeps all its state (60_exceptions R264; the idle step is the model's, DESIGN CHOICE log 9). -/
def Obligations.IdleStepKeepsState : Prop :=
  ∀ s : State, s.host = [] → step s = .next s

/-- No instruction and no host access is refused by the model, from any state. -/
def Obligations.NoStepIsRefused : Prop :=
  ∀ (s : State) (r : Refusal), step s ≠ .refused r

/-- A step takes exactly the oldest pending access, keeps P_MAXPIX, and only adds to the values the host has read
(20_memory R107; the fields are the model's, logs 1 and 2). -/
def Obligations.StepTakesOneAccess : Prop :=
  ∀ s t : State, step s = .next t → t.host = s.host.tail ∧ t.maxPix = s.maxPix ∧ s.reads <+: t.reads

/-! ## RESET and power-on -/

/-- 42_control R230, R231: RESET completes from every state, with every register at its reset value and no array cell,
no sink byte changed. -/
def Obligations.ResetCompletes : Prop :=
  ∀ s : State, exec .reset s = .next { s with
    tv := false, iv := false, fail := false, err := .noError, errInfo := 0, frameW := 0, frameH := 0, nColors := 0,
    fcTarget := 0, fcResult := 0x100, encBytes := 0, encMcs := 0 }

/-- The state after power-on, as the host reads it (10_state R42, R77; 70_reset_and_hazards R280). -/
def Obligations.PowerOnValues : Prop :=
  readReg .status State.reset = 0x00000000 ∧ readReg .errInfo State.reset = 0 ∧ readReg .frameW State.reset = 0 ∧
  readReg .frameH State.reset = 0 ∧ readReg .nColors State.reset = 0 ∧ readReg .fcTarget State.reset = 0 ∧
  readReg .fcResult State.reset = 0x00000100 ∧ readReg .encBytes State.reset = 0 ∧
  readReg .encMcs State.reset = 0 ∧ readReg .id State.reset = 0x45550001 ∧ readReg .cmd State.reset = 0 ∧
  ∀ (space : Space) (offset : Nat), (State.reset.array space).read offset = none

/-- The host's power-on reset gives, from any state, the reset state but for the sink, P_MAXPIX and what belongs to
the host (10_state R77; the access is the model's, DESIGN CHOICE log 15). -/
def Obligations.PowerOnAccessResets : Prop :=
  ∀ (s : State) (rest : List HostOp), s.host = .powerOn :: rest →
    step s = .next { State.reset with sink := s.sink, host := rest, reads := s.reads, maxPix := s.maxPix }

/-! ## Errors before any effect -/

/-- 60_exceptions R242: in the failed state every command but RESET ends with FAILED, code 2, and no other effect. -/
def Obligations.FailedStateRefusesCommands : Prop :=
  Err.failed.code = 2 ∧
  ∀ (s : State) (i : Instr), s.fail = true → i ≠ .reset → exec i s = .next { s with err := .failed, errInfo := 0 }

/-- 60_exceptions R243: QUANT and ENCODE end with SIZE, code 3, ERR_INFO the exact pixel count, when it exceeds
P_MAXPIX, and change nothing else. -/
def Obligations.SizeErrorOfLargeFrames : Prop :=
  Err.size.code = 3 ∧
  ∀ s : State, s.fail = false → s.maxPix < s.frameW.toNat * s.frameH.toNat →
    ∃ info : Word, info.toNat = s.frameW.toNat * s.frameH.toNat ∧
      exec .quant s = .next { s with err := .size, errInfo := info } ∧
      ∀ (scs : Nat) (hdr : Bool), exec (.encode scs hdr) s = .next { s with err := .size, errInfo := info }

/-- 60_exceptions R244: ENCODE with SCS above 8 ends with CODESIZE, code 4, and changes nothing else; the sink is
offered no byte. -/
def Obligations.CodeSizeErrorOfLargeScs : Prop :=
  Err.codeSize.code = 4 ∧
  ∀ (s : State) (scs : Nat) (hdr : Bool), s.fail = false → s.pixelCount ≤ s.maxPix → 8 < scs →
    exec (.encode scs hdr) s = .next { s with err := .codeSize, errInfo := 0 }

/-- 60_exceptions R245: ENCODE with IV = 0 ends with NOTVALID, code 5, and changes nothing else; the sink is offered
no byte. -/
def Obligations.NotValidErrorWithoutStream : Prop :=
  Err.notValid.code = 5 ∧
  ∀ (s : State) (scs : Nat) (hdr : Bool), s.fail = false → s.pixelCount ≤ s.maxPix → scs ≤ 8 → s.iv = false →
    exec (.encode scs hdr) s = .next { s with err := .notValid, errInfo := 0 }

/-- 60_exceptions R246: ENCODE ends with INDEX_RANGE, code 6, ERR_INFO the smallest position of an index at or above
CLEAR, and changes nothing else: IV, IDX and the sink stay. -/
def Obligations.IndexRangeErrorAtFirstBadIndex : Prop :=
  Err.indexRange.code = 6 ∧
  ∀ (s : State) (scs : Nat) (hdr : Bool) (k : Nat) (b : Byte),
    s.fail = false → s.pixelCount ≤ s.maxPix → scs ≤ 8 → s.iv = true → k < s.pixelCount →
    s.idx.read k = some b → 2 ^ max 2 scs ≤ b.toNat →
    (∀ j < k, ∃ a, s.idx.read j = some a ∧ a.toNat < 2 ^ max 2 scs) →
    ∃ info : Word, info.toNat = k ∧ exec (.encode scs hdr) s = .next { s with err := .indexRange, errInfo := info }

/-! ## QUANT -/

/-- 40_quantizer R150 to R156: a frame of at most 255 distinct colors completes. Slot 0 is the sentinel, the colors
have the slots 1, 2, … in first-seen order, the mask and NCOLORS say which slots are in use, no other slot holds a
value, every pixel's index is its color's slot, and PIX is consumed. -/
def Obligations.QuantBuildsFirstSeenPalette : Prop :=
  ∀ (s : State) (cs : List Rgb), s.fail = false → s.pixelCount ≤ s.maxPix → s.frameIs cs →
    (firstSeen cs).length ≤ 255 →
    ∃ t, exec .quant s = .next t ∧ t.tv = true ∧ t.iv = true ∧ t.err = .noError ∧ t.errInfo = 0 ∧
      t.nColors.toNat = (firstSeen cs).length + 1 ∧ readSlot 0 t = .ok ⟨105, 105, 105⟩ ∧
      (∀ c ∈ cs, readSlot (slotOf cs c) t = .ok c) ∧
      (∀ i < 256, readUsed i t = .ok (decide (i < (firstSeen cs).length + 1))) ∧
      (∀ offset, 3 * ((firstSeen cs).length + 1) ≤ offset → t.ct.read offset = none) ∧
      (∀ k (h : k < cs.length), t.idx.read k = some (BitVec.ofNat 8 (slotOf cs cs[k]))) ∧
      ∀ offset < 3 * s.pixelCount, t.pix.read offset = none

/-- 60_exceptions R247 with 40_quantizer R154, R157: at the first pixel k whose color is new while the counter is 256
(255 distinct colors before it), QUANT ends with PALETTE_OVERFLOW, code 7, ERR_INFO = k: TV, IV, NCOLORS are 0, CT, UM,
IDX[0..N-1] and PIX[0..3N-1] hold no value, and nothing else changes, FAIL among it. -/
def Obligations.QuantPaletteOverflow : Prop :=
  Err.paletteOverflow.code = 7 ∧
  ∀ (s : State) (cs : List Rgb) (c : Rgb), s.fail = false → s.pixelCount ≤ s.maxPix → cs.length < s.pixelCount →
    (∀ k (h : k < cs.length), readPixel k s = .ok cs[k]) → (firstSeen cs).length = 255 →
    readPixel cs.length s = .ok c → c ∉ cs →
    ∃ t, exec .quant s = .next t ∧
      t = { s with tv := false, iv := false, nColors := 0, err := .paletteOverflow, errInfo := t.errInfo,
                   ct := t.ct, um := t.um, idx := t.idx, pix := t.pix } ∧
      t.errInfo.toNat = cs.length ∧ (∀ a, t.ct.read a = none) ∧ (∀ a, t.um.read a = none) ∧
      (∀ a, t.idx.read a = if a < s.pixelCount then none else s.idx.read a) ∧
      ∀ a, t.pix.read a = if a < 3 * s.pixelCount then none else s.pix.read a

/-- 40_quantizer R158: QUANT completes without error on an empty frame, a frame of one pixel, and one color repeated N
times. -/
def Obligations.QuantCornerFrames : Prop :=
  ∀ s : State, s.fail = false → s.pixelCount ≤ s.maxPix →
    (s.frameW = 0 ∨ s.frameH = 0 → ∃ t, exec .quant s = .next t ∧ t.err = .noError ∧ t.errInfo = 0 ∧
      readSlot 0 t = .ok ⟨105, 105, 105⟩ ∧
      (∀ i < 256, readUsed i t = .ok (decide (i = 0))) ∧ t.nColors = 1 ∧ t.tv = true ∧ t.iv = true ∧
      ∀ a, t.idx.read a = s.idx.read a) ∧
    (∀ c, s.frameIs [c] → ∃ t, exec .quant s = .next t ∧ t.err = .noError ∧ t.errInfo = 0 ∧ t.nColors = 2 ∧
      t.idx.read 0 = some 1) ∧
    ∀ n c, 1 ≤ n → s.frameIs (List.replicate n c) → ∃ t, exec .quant s = .next t ∧ t.err = .noError ∧
      t.errInfo = 0 ∧ t.nColors = 2 ∧ ∀ k < n, t.idx.read k = some 1

/-- What QUANT leaves as it was, whenever it gives a next state: FAIL, the operand and result registers of the other
commands, the sink, and every cell of PIX and IDX beyond the frame. It writes CT and UM whole. -/
def Obligations.QuantFrame : Prop :=
  ∀ s t : State, exec .quant s = .next t →
    t = { s with tv := t.tv, iv := t.iv, err := t.err, errInfo := t.errInfo, nColors := t.nColors,
                 pix := t.pix, idx := t.idx, ct := t.ct, um := t.um } ∧
    (∀ a, 3 * s.pixelCount ≤ a → t.pix.read a = s.pix.read a) ∧
    ∀ a, s.pixelCount ≤ a → t.idx.read a = s.idx.read a

/-- QUANT stops for one reason only: a cell of the frame's pixels holds no value (20_memory R97, 40_quantizer R159). -/
def Obligations.QuantStopsOnlyAtUnwrittenPixel : Prop :=
  ∀ (s : State) (f : Fault), exec .quant s = .fault f →
    ∃ offset < 3 * s.pixelCount, s.pix.read offset = none ∧ f = .noValue .pix offset

/-- 10_state R70: nothing of an earlier frame reaches a later one. Two states with the same frame registers, pixels and
P_MAXPIX, whatever their palettes, masks, streams and flags, get the same outcome of QUANT: the same palette, mask,
count, flags and error, and the same indices of the frame. -/
def Obligations.QuantForgetsEarlierFrames : Prop :=
  ∀ s s' t : State, s.fail = false → s'.fail = false → s.pixelCount ≤ s.maxPix →
    s'.frameW = s.frameW → s'.frameH = s.frameH → s'.pix = s.pix → s'.maxPix = s.maxPix →
    exec .quant s = .next t →
    ∃ t', exec .quant s' = .next t' ∧ t'.ct = t.ct ∧ t'.um = t.um ∧ t'.nColors = t.nColors ∧ t'.tv = t.tv ∧
      t'.iv = t.iv ∧ t'.err = t.err ∧ t'.errInfo = t.errInfo ∧ t'.pix = t.pix ∧
      ∀ k < s.pixelCount, t'.idx.read k = t.idx.read k

/-! ## FINDC -/

/-- 40_quantizer R161: with TV = 0 FINDC writes FC_RESULT = 0x0000_0100 and ends without error; TV = 0 holds after
reset, after PALETTE_OVERFLOW and after SINK_FAIL. -/
def Obligations.FindcWithoutTable : Prop :=
  (∀ s : State, s.fail = false → s.tv = false → ∃ t, exec .findc s = .next t ∧
    t = { s with fcResult := 0x100, err := .noError, errInfo := 0 } ∧ readReg .fcResult t = 0x00000100) ∧
  State.reset.tv = false ∧
  (∀ s t : State, exec .reset s = .next t → t.tv = false) ∧
  ∀ (s t : State) (i : Instr), exec i s = .next t → t.err = .paletteOverflow ∨ t.err = .sinkFail → t.tv = false

/-- 40_quantizer R163 with R160: FINDC gives the lowest populated slot at the least distance from the target, and
changes nothing but FC_RESULT, ERR and ERR_INFO. -/
def Obligations.FindcNearestLowestSlot : Prop :=
  ∀ s : State, s.fail = false → s.tv = true → s.tableReadable →
    ∃ (best : Nat) (c : Rgb), best < 256 ∧ readUsed best s = .ok true ∧ readSlot best s = .ok c ∧
      exec .findc s = .next { s with fcResult := BitVec.ofNat 9 best, err := .noError, errInfo := 0 } ∧
      ∀ (j : Nat) (d : Rgb), j < 256 → readUsed j s = .ok true → readSlot j s = .ok d →
        colorDist s.target c ≤ colorDist s.target d ∧
        (j < best → colorDist s.target c < colorDist s.target d)

/-- 40_quantizer R162: the distance is the exact sum of the squared signed differences, each from -255 to 255, and is
at most 195075, so it fits in 18 bits and is below the first dmin. -/
def Obligations.ColorDistanceIsExact : Prop :=
  ∀ t c : Rgb,
    (colorDist t c : Int) = ((t.r.toNat : Int) - c.r.toNat) ^ 2 + ((t.g.toNat : Int) - c.g.toNat) ^ 2 +
      ((t.b.toNat : Int) - c.b.toNat) ^ 2 ∧
    (-255 ≤ (t.r.toNat : Int) - c.r.toNat ∧ (t.r.toNat : Int) - c.r.toNat ≤ 255) ∧
    (-255 ≤ (t.g.toNat : Int) - c.g.toNat ∧ (t.g.toNat : Int) - c.g.toNat ≤ 255) ∧
    (-255 ≤ (t.b.toNat : Int) - c.b.toNat ∧ (t.b.toNat : Int) - c.b.toNat ≤ 255) ∧
    colorDist t c ≤ 195075 ∧ colorDist t c < 2 ^ 18 ∧ colorDist t c < 2 ^ 24

/-- 40_quantizer R164: a target of the sentinel color gives slot 0, even when another slot holds that color. -/
def Obligations.FindcSentinelTargetGivesSlotZero : Prop :=
  ∀ s : State, s.fail = false → s.tv = true → s.tableReadable → readSlot 0 s = .ok ⟨105, 105, 105⟩ →
    s.fcTarget = 0x696969 → exec .findc s = .next { s with fcResult := 0, err := .noError, errInfo := 0 }

/-- FINDC has no execution-time error and no stop in a state that meets the table's invariant (40_quantizer R160). -/
def Obligations.FindcCompletesUnderTableInv : Prop :=
  ∀ s : State, s.fail = false → s.TableInv → ∃ t, exec .findc s = .next t ∧ t.err = .noError

/-- What FINDC leaves as it was, whenever it gives a next state: everything but FC_RESULT, ERR and ERR_INFO. -/
def Obligations.FindcFrame : Prop :=
  ∀ s t : State, exec .findc s = .next t →
    t = { s with fcResult := t.fcResult, err := t.err, errInfo := t.errInfo }

/-! ## ENCODE -/

/-- 41_lzw_encoder R180, R181, R194, R197: with the checks passed and a sink that accepts every byte, ENCODE completes.
The sink's history grows by the image data, ENC_BYTES counts it where 32 bits hold the count (DESIGN CHOICE log 8), ENC_MCS is
max(2, SCS), IDX[0..N-1] and IV are consumed, and nothing else changes. -/
def Obligations.EncodeCompletes : Prop :=
  ∀ (s : State) (scs : Nat) (hdr : Bool) (ids : List Byte),
    s.fail = false → s.pixelCount ≤ s.maxPix → scs ≤ 8 → s.iv = true → s.streamIs ids →
    (∀ b ∈ ids, b.toNat < 2 ^ max 2 scs) →
    (∀ j < (imageData (max 2 scs) hdr ids).length, s.sink.answerAt j = .accept) →
    ∃ t, exec (.encode scs hdr) s = .next t ∧
      t = { s with iv := false, err := .noError, errInfo := 0, encBytes := t.encBytes, encMcs := t.encMcs,
                   idx := t.idx, sink := t.sink } ∧
      t.sink.history = s.sink.history ++ imageData (max 2 scs) hdr ids ∧
      ((imageData (max 2 scs) hdr ids).length < 2 ^ 32 →
        t.encBytes.toNat = (imageData (max 2 scs) hdr ids).length) ∧
      t.encMcs.toNat = max 2 scs ∧
      ∀ a, t.idx.read a = if a < s.pixelCount then none else s.idx.read a

/-- 60_exceptions R248 with 41_lzw_encoder R194: when the sink accepts n bytes of the image data and rejects the next,
ENCODE ends with SINK_FAIL, code 8: FAIL is 1, TV, IV and NCOLORS are 0, CT, UM and IDX[0..N-1] hold no value, ERR_INFO
is ENC_BYTES, which is n where 32 bits hold it (DESIGN CHOICE log 8), ENC_MCS is m, and the n accepted bytes stay in the history. -/
def Obligations.EncodeSinkFailure : Prop :=
  Err.sinkFail.code = 8 ∧
  ∀ (s : State) (scs : Nat) (hdr : Bool) (ids : List Byte) (n : Nat),
    s.fail = false → s.pixelCount ≤ s.maxPix → scs ≤ 8 → s.iv = true → s.streamIs ids →
    (∀ b ∈ ids, b.toNat < 2 ^ max 2 scs) → n < (imageData (max 2 scs) hdr ids).length →
    (∀ j < n, s.sink.answerAt j = .accept) → s.sink.answerAt n = .reject →
    ∃ t, exec (.encode scs hdr) s = .next t ∧
      t = { s with fail := true, tv := false, iv := false, nColors := 0, err := .sinkFail, errInfo := t.encBytes,
                   encBytes := t.encBytes, encMcs := t.encMcs, ct := t.ct, um := t.um, idx := t.idx, sink := t.sink } ∧
      (n < 2 ^ 32 → t.encBytes.toNat = n) ∧ t.encMcs.toNat = max 2 scs ∧
      (∀ a, t.ct.read a = none) ∧ (∀ a, t.um.read a = none) ∧
      (∀ a, t.idx.read a = if a < s.pixelCount then none else s.idx.read a) ∧
      t.sink.history = s.sink.history ++ (imageData (max 2 scs) hdr ids).take n

/-- A sink that never answers a byte leaves ENCODE stuck (20_memory R105, 70_reset_and_hazards R300; DEDUCED log 5). -/
def Obligations.EncodeStuckOnSilentSink : Prop :=
  ∀ (s : State) (scs : Nat) (hdr : Bool) (ids : List Byte) (n : Nat),
    s.fail = false → s.pixelCount ≤ s.maxPix → scs ≤ 8 → s.iv = true → s.streamIs ids →
    (∀ b ∈ ids, b.toNat < 2 ^ max 2 scs) → n < (imageData (max 2 scs) hdr ids).length →
    (∀ j < n, s.sink.answerAt j = .accept) → s.sink.answerAt n = .silent →
    exec (.encode scs hdr) s = .fault .sinkSilent

/-- What ENCODE leaves as it was, whenever it gives a next state: FRAME_W, FRAME_H, FC_TARGET, FC_RESULT, PIX and every
cell of IDX beyond the frame; the sink's history only grows; and unless the error is SINK_FAIL also FAIL, TV, NCOLORS,
CT and UM (41_lzw_encoder R181, R197). -/
def Obligations.EncodeFrame : Prop :=
  ∀ (s t : State) (scs : Nat) (hdr : Bool), exec (.encode scs hdr) s = .next t →
    t = { s with tv := t.tv, iv := t.iv, fail := t.fail, err := t.err, errInfo := t.errInfo, nColors := t.nColors,
                 encBytes := t.encBytes, encMcs := t.encMcs, ct := t.ct, um := t.um, idx := t.idx, sink := t.sink } ∧
    (∀ a, s.pixelCount ≤ a → t.idx.read a = s.idx.read a) ∧ s.sink.history <+: t.sink.history ∧
    (t.err ≠ .sinkFail → t.fail = s.fail ∧ t.tv = s.tv ∧ t.nColors = s.nColors ∧ t.ct = s.ct ∧ t.um = s.um)

/-- ENCODE stops only past its checks, and for two reasons only: an index of the frame holds no value while every index
before it is below CLEAR (DESIGN CHOICE log 6), or the sink accepts some bytes of the image data and never answers the next
(DEDUCED log 5). -/
def Obligations.EncodeStopsOnlyAtUnwrittenIndexOrSilence : Prop :=
  ∀ (s : State) (scs : Nat) (hdr : Bool) (f : Fault), exec (.encode scs hdr) s = .fault f →
    s.fail = false ∧ s.pixelCount ≤ s.maxPix ∧ scs ≤ 8 ∧ s.iv = true ∧
    ((∃ k < s.pixelCount, s.idx.read k = none ∧ f = .noValue .idx k ∧
        ∀ j < k, ∃ b, s.idx.read j = some b ∧ b.toNat < 2 ^ max 2 scs) ∨
     (f = .sinkSilent ∧ ∃ ids : List Byte, s.streamIs ids ∧ (∀ b ∈ ids, b.toNat < 2 ^ max 2 scs) ∧
        ∃ n < (imageData (max 2 scs) hdr ids).length,
          (∀ j < n, s.sink.answerAt j = .accept) ∧ s.sink.answerAt n = .silent))

/-- 41_lzw_encoder R201: SCS = 0 or 1 behaves exactly as SCS = 2, in every state. -/
def Obligations.SmallScsActAsTwo : Prop :=
  ∀ (s : State) (hdr : Bool), exec (.encode 0 hdr) s = exec (.encode 2 hdr) s ∧
    exec (.encode 1 hdr) s = exec (.encode 2 hdr) s

/-! ## The LZW procedures -/

/-- 41_lzw_encoder R188: what OutputCode does to the width, for every code, comparing freeEnt as it stood before the
output; the dictionary and freeEnt are not touched. -/
def Obligations.OutputCodeUpdatesWidth : Prop :=
  ∀ (m code : Nat) (z : Lzw),
    (outputCode m code z).nBits =
      (if z.clearFlag then m + 1
       else if 2 ^ z.nBits - 1 < z.freeEnt ∧ z.nBits < 12 then z.nBits + 1 else z.nBits) ∧
    (outputCode m code z).clearFlag = false ∧ (outputCode m code z).freeEnt = z.freeEnt ∧
    (outputCode m code z).dict = z.dict

/-- 41_lzw_encoder R192: CharOut appends to the packet and flushes it at 254 bytes as a length byte and the bytes;
FlushPacket emits nothing of an empty packet. -/
def Obligations.PacketsFlushAtTwoHundredFiftyFour : Prop :=
  (∀ (b : Byte) (z : Lzw), z.pkt.length ≤ 252 → charOut b z = { z with pkt := z.pkt ++ [b] }) ∧
  (∀ (b : Byte) (z : Lzw), z.pkt.length = 253 →
    charOut b z = { z with pkt := [], out := z.out ++ 254#8 :: (z.pkt ++ [b]) }) ∧
  (∀ z : Lzw, z.pkt = [] → flushPacket z = z) ∧
  ∀ z : Lzw, z.pkt ≠ [] → z.pkt.length ≤ 254 → ∃ len : Byte, len.toNat = z.pkt.length ∧
    flushPacket z = { z with pkt := [], out := z.out ++ len :: z.pkt }

/-- The encoder's per-command state stays in the ranges the spec gives it (10_state R64, R65, R67, R68) after the first
CLEAR and every index of any stream in range. -/
def Obligations.EncoderStateStaysInRange : Prop :=
  ∀ (m : Nat) (hdr : Bool) (c : Byte) (cs : List Byte), 2 ≤ m → m ≤ 8 → c.toNat < 2 ^ m →
    (∀ b ∈ cs, b.toNat < 2 ^ m) →
    (lzwScan m cs c.toNat (outputCode m (clearCode m) (lzwStart m hdr))).2.InRange m

/-- 41_lzw_encoder R196: every code of a stream is below 2 to its width, and widths lie between initBits and 12. -/
def Obligations.NoCodeIsTruncated : Prop :=
  ∀ (m : Nat) (ids : List Byte), 2 ≤ m → m ≤ 8 → (∀ b ∈ ids, b.toNat < 2 ^ m) →
    ∀ cw ∈ codeStream m ids, cw.1 < 2 ^ cw.2 ∧ m + 1 ≤ cw.2 ∧ cw.2 ≤ 12

/-- The procedures of ENCODE give the byte sequence the spec describes: the code stream with its closed-form widths
(41_lzw_encoder R199), packed least significant bit first with zero padding (20_memory R100, 30_encoding R143), in
sub-blocks of 254 with one terminator (30_encoding R145, 41_lzw_encoder R202). -/
def Obligations.ImageDataIsFramedCodeStream : Prop :=
  ∀ (m : Nat) (hdr : Bool) (ids : List Byte), 2 ≤ m → m ≤ 8 → (∀ b ∈ ids, b.toNat < 2 ^ m) →
    imageData m hdr ids = framed m hdr ids

/-- The length of the byte sequence (30_encoding R145): with T code-stream bytes, header + T + one length byte a
sub-block + the terminator, and T is at least 1. -/
def Obligations.ImageDataLength : Prop :=
  ∀ (m : Nat) (hdr : Bool) (ids : List Byte), 2 ≤ m → m ≤ 8 → (∀ b ∈ ids, b.toNat < 2 ^ m) →
    ∃ bits T : Nat, bits = ((codeStream m ids).map Prod.snd).sum ∧ T = (bits + 7) / 8 ∧ 1 ≤ T ∧
      (imageData m hdr ids).length =
        (if hdr then 1 else 0) + T + T / 254 + (if 0 < T % 254 then 1 else 0) + 1

/-- Round trip (41_lzw_encoder R200): a standard GIF LZW decoder (PRESUMED log 17) reads back exactly the indices, from the
initial code size and the sub-block series, and the header byte is the initial code size. -/
def Obligations.DecodingImageDataGivesIndices : Prop :=
  ∀ (m : Nat) (ids : List Byte), 2 ≤ m → m ≤ 8 → (∀ b ∈ ids, b.toNat < 2 ^ m) →
    gifDecode m (imageData m false ids) = some ids ∧
    imageData m true ids = BitVec.ofNat 8 m :: imageData m false ids

/-- 41_lzw_encoder R195: the 5003-slot hash table answers as the exact map. After any inserts of distinct pairs, as
many as fit between two clears, a lookup is a hit exactly for an inserted pair, with the code it was given. -/
def Obligations.HashTableIsExactMap : Prop :=
  ∀ (entries : List ((Nat × Nat) × Nat)) (ent c : Nat), entries.length ≤ 4090 →
    (entries.map Prod.fst).Nodup → (∀ e ∈ entries, e.1.1 < 4096 ∧ e.1.2 < 256) → ent < 4096 → c < 256 →
    (∀ v, entries.lookup (ent, c) = some v → ∃ slot, hashLookup (hashFill entries) ent c = .hit v slot) ∧
    (entries.lookup (ent, c) = none → ∃ slot, slot < 5003 ∧ hashLookup (hashFill entries) ent c = .miss slot)

/-! ## The host bus -/

/-- STATUS as the host reads it (10_state R44): TV, IV, FAIL in bits 0, 1, 2, ERR in bits 7:4, every other bit 0. -/
def Obligations.StatusWordLayout : Prop :=
  ∀ s : State, (readReg .status s).getLsbD 0 = s.tv ∧ (readReg .status s).getLsbD 1 = s.iv ∧
    (readReg .status s).getLsbD 2 = s.fail ∧ (readReg .status s).getLsbD 3 = false ∧
    (readReg .status s).extractLsb' 4 4 = s.err.code ∧ (readReg .status s).extractLsb' 8 24 = 0

/-- 10_state R42, R51, R53, R57: what a register reads after the register write (writeReg) that a host write of v to any
register but CMD makes: FRAME_W and FRAME_H their low 16 bits of v, FC_TARGET its low 24, any other written register what
it read before; every register not written reads as before. A host write to CMD starts a command and makes no register
write (10_state R43); for CMD the clause says only that writeReg stores nothing. -/
def Obligations.RegisterReadAfterWrite : Prop :=
  ∀ (s : State) (r r' : Reg) (v : Word),
    readReg r' (writeReg r v s) =
      if r' = r ∧ (r = .frameW ∨ r = .frameH) then v &&& 0x0000FFFF
      else if r' = r ∧ r = .fcTarget then v &&& 0x00FFFFFF
      else readReg r' s

/-- A 32-bit aligned register access below the end of REG (20_memory R91): a read gives the register at that offset of
the table of 10_state R42 to the host (the list of reads is the model's, DESIGN CHOICE log 2) and changes nothing else; a
write to any register but CMD is that register's write. The offsets 0x2C to 0x3C are reserved and read 0 (10_state
R57). -/
def Obligations.RegisterAccessByOffset : Prop :=
  (regAt 0x00 = .cmd ∧ regAt 0x04 = .status ∧ regAt 0x08 = .errInfo ∧ regAt 0x0C = .frameW ∧ regAt 0x10 = .frameH ∧
    regAt 0x14 = .nColors ∧ regAt 0x18 = .fcTarget ∧ regAt 0x1C = .fcResult ∧ regAt 0x20 = .encBytes ∧
    regAt 0x24 = .encMcs ∧ regAt 0x28 = .id ∧ regAt 0x2C = .reserved ∧ regAt 0x30 = .reserved ∧
    regAt 0x34 = .reserved ∧ regAt 0x38 = .reserved ∧ regAt 0x3C = .reserved) ∧
  (∀ s : State, readReg .reserved s = 0) ∧
  ∀ (s : State) (offset : Nat) (rest : List HostOp), offset % 4 = 0 → offset ≤ 0x3C →
    (s.host = .read .reg offset 4 :: rest →
      step s = .next { s with host := rest, reads := s.reads ++ [readReg (regAt offset) s] }) ∧
    ∀ v : Word, s.host = .write .reg offset 4 v :: rest → offset ≠ 0 →
      step s = .next { writeReg (regAt offset) v s with host := rest }

/-- 20_memory R96: a bus error has no effect: a write is ignored, a read returns 0, STATUS.ERR is not written. Bus
errors are a REG access that is not 4 bytes wide, not aligned or beyond 0x3C, an array access that is not one byte wide
or not below the space's size, and a write to a read-only register, CT or UM. A width is a number of bytes (DESIGN CHOICE log 10), and what a read
returns is kept in the model's list of reads (DESIGN CHOICE log 2). -/
def Obligations.BusErrorsHaveNoEffect : Prop :=
  (∀ (s : State) (space : Space) (offset width : Nat) (rest : List HostOp),
    s.host = .read space offset width :: rest →
    (space = .reg → width ≠ 4 ∨ offset % 4 ≠ 0 ∨ 0x3C < offset) →
    (space = .pix → width ≠ 1 ∨ 3 * s.maxPix ≤ offset) → (space = .idx → width ≠ 1 ∨ s.maxPix ≤ offset) →
    (space = .ct → width ≠ 1 ∨ 768 ≤ offset) → (space = .um → width ≠ 1 ∨ 32 ≤ offset) →
    step s = .next { s with host := rest, reads := s.reads ++ [0] }) ∧
  ∀ (s : State) (space : Space) (offset width : Nat) (v : Word) (rest : List HostOp),
    s.host = .write space offset width v :: rest →
    (space = .reg → width ≠ 4 ∨ offset % 4 ≠ 0 ∨ 0x3C < offset ∨
      (offset ≠ 0x00 ∧ offset ≠ 0x0C ∧ offset ≠ 0x10 ∧ offset ≠ 0x18)) →
    (space = .pix → width ≠ 1 ∨ 3 * s.maxPix ≤ offset) → (space = .idx → width ≠ 1 ∨ s.maxPix ≤ offset) →
    step s = .next { s with host := rest }

/-- 20_memory R95: a host write to IDX writes the byte and sets IV; a host write to PIX writes the byte; a host read of
any space that gives a next state changes nothing but what the host has read. Every other cell and all other state
stay. That the byte is bits 7:0 of the data is the model's choice (DESIGN CHOICE log 10; 20_memory R99 leaves the lanes to
the platform), and so is the list that keeps what the host has read (DESIGN CHOICE log 2). -/
def Obligations.HostArrayAccesses : Prop :=
  (∀ (s : State) (offset : Nat) (v : Word) (rest : List HostOp),
    s.host = .write .idx offset 1 v :: rest → offset < s.maxPix →
    ∃ t, step s = .next t ∧ t = { s with host := rest, iv := true, idx := t.idx } ∧
      ∀ a, t.idx.read a = if a = offset then some (v.setWidth 8) else s.idx.read a) ∧
  (∀ (s : State) (offset : Nat) (v : Word) (rest : List HostOp),
    s.host = .write .pix offset 1 v :: rest → offset < 3 * s.maxPix →
    ∃ t, step s = .next t ∧ t = { s with host := rest, pix := t.pix } ∧
      ∀ a, t.pix.read a = if a = offset then some (v.setWidth 8) else s.pix.read a) ∧
  ∀ (s t : State) (space : Space) (offset width : Nat) (rest : List HostOp),
    s.host = .read space offset width :: rest → step s = .next t →
    ∃ v : Word, t = { s with host := rest, reads := s.reads ++ [v] }

/-- A host read of a cell inside its space gives its byte, and stops the model when the cell holds no value
(20_memory R97; DESIGN CHOICE log 6). The byte is returned zero-extended to 32 bits (DESIGN CHOICE log 10) in the model's
list of reads (DESIGN CHOICE log 2). -/
def Obligations.HostReadOfCell : Prop :=
  ∀ (s : State) (space : Space) (offset : Nat) (rest : List HostOp),
    s.host = .read space offset 1 :: rest → space ≠ .reg → offset < s.spaceSize space →
    (∀ b, (s.array space).read offset = some b →
      step s = .next { s with host := rest, reads := s.reads ++ [b.setWidth 32] }) ∧
    ((s.array space).read offset = none → step s = .fault (.noValue space offset))

/-- The host's own byte to the sink (10_state R59, 20_memory R105, R106): an accepted byte is appended to the history.
Rejected it is not in the history (DESIGN CHOICE log 11), unanswered it leaves the machine stuck (DEDUCED log 5). The
core, its registers and arrays, stay as they were, and one answer of the sink is used up (DESIGN CHOICE log 3). -/
def Obligations.HostSinkWriteAppends : Prop :=
  ∀ (s : State) (b : Byte) (rest : List HostOp), s.host = .sinkWrite b :: rest →
    (s.sink.answerAt 0 = .accept → ∃ k : Sink, k.history = s.sink.history ++ [b] ∧
      (∀ j, k.answerAt j = s.sink.answerAt (j + 1)) ∧ step s = .next { s with host := rest, sink := k }) ∧
    (s.sink.answerAt 0 = .reject → ∃ k : Sink, k.history = s.sink.history ∧
      (∀ j, k.answerAt j = s.sink.answerAt (j + 1)) ∧ step s = .next { s with host := rest, sink := k }) ∧
    (s.sink.answerAt 0 = .silent → step s = .fault .sinkSilent)

/-! ## Whole-machine rules and invariants -/

/-- Which steps write TV, IV and FAIL (10_state R45 to R47, R75): TV rises only by a QUANT that completes and falls only
by a QUANT that overflows, a SINK_FAIL, RESET or power-on; IV rises only by a QUANT that completes or a host write to
IDX and falls only by a QUANT that overflows, an ENCODE that completes or SINK_FAIL, RESET or power-on; FAIL rises only
by SINK_FAIL and falls only by RESET or power-on. -/
def Obligations.OnlyNamedEventsWriteFlags : Prop :=
  ∀ (s t : State) (op : HostOp) (rest : List HostOp), s.host = op :: rest → step s = .next t →
    (s.tv = false → t.tv = true → op = .write .reg 0 4 2 ∧ t.err = .noError) ∧
    (s.tv = true → t.tv = false → (op = .write .reg 0 4 2 ∧ t.err = .paletteOverflow) ∨
      (∃ scs hdr, op = .write .reg 0 4 (encode (.encode scs hdr)) ∧ t.err = .sinkFail) ∨
      op = .write .reg 0 4 1 ∨ op = .powerOn) ∧
    (s.iv = false → t.iv = true → (op = .write .reg 0 4 2 ∧ t.err = .noError) ∨
      ∃ offset v, op = .write .idx offset 1 v) ∧
    (s.iv = true → t.iv = false → (op = .write .reg 0 4 2 ∧ t.err = .paletteOverflow) ∨
      (∃ scs hdr, op = .write .reg 0 4 (encode (.encode scs hdr)) ∧ (t.err = .noError ∨ t.err = .sinkFail)) ∨
      op = .write .reg 0 4 1 ∨ op = .powerOn) ∧
    (s.fail = false → t.fail = true →
      ∃ scs hdr, op = .write .reg 0 4 (encode (.encode scs hdr)) ∧ t.err = .sinkFail) ∧
    (s.fail = true → t.fail = false → op = .write .reg 0 4 1 ∨ op = .powerOn)

/-- Accepted bytes stay (10_state R59, 20_memory R105, R106): a step only adds to the sink's history, and adds only by
an ENCODE or by the host's own sink write. -/
def Obligations.SinkHistoryOnlyGrows : Prop :=
  ∀ s t : State, step s = .next t → s.sink.history <+: t.sink.history ∧
    (t.sink.history ≠ s.sink.history →
      (∃ scs hdr rest, s.host = .write .reg 0 4 (encode (.encode scs hdr)) :: rest) ∨
      ∃ b rest, s.host = .sinkWrite b :: rest)

/-- Every step keeps the arrays in canonical form and inside their spaces. -/
def Obligations.StepKeepsMemoryInv : Prop :=
  ∀ s t : State, s.MemoryInv → step s = .next t → t.MemoryInv

/-- Every step keeps the table's invariant: while TV = 1, the mask and the palette are exactly NCOLORS slots, slot 0 the
sentinel, and TV = 0 exactly when NCOLORS = 0 (10_state R45, R48; 40_quantizer R151, R155). -/
def Obligations.StepKeepsTableInv : Prop :=
  ∀ s t : State, s.TableInv → step s = .next t → t.TableInv

/-- Every step keeps what the flags, the error and the result registers say of each other. -/
def Obligations.StepKeepsFlagInv : Prop :=
  ∀ s t : State, s.FlagInv → step s = .next t → t.FlagInv

/-- The three invariants hold in the reset state. -/
def Obligations.ResetMeetsInvariants : Prop :=
  State.reset.MemoryInv ∧ State.reset.TableInv ∧ State.reset.FlagInv
end

