-- ==== Sys2Proof/Laws/Memory.lean ====
section
/-! SUPPORT. The laws of the arrays: read after write, the canonical form, the bounds. -/

namespace Sys2Proof.Machine

theorem Memory.read_nil (a : Nat) : Memory.read [] a = none := rfl

theorem Memory.read_cons (x : Nat) (v : Byte) (m : Memory) (a : Nat) :
    Memory.read ((x, v) :: m) a = if x = a then some v else Memory.read m a := rfl

/-- A read of the cell written gives the byte written. -/
@[simp] theorem Memory.read_write_same (m : Memory) (a : Nat) (v : Byte) : (m.write a v).read a = some v := by
  induction m with
  | nil => simp [Memory.write, Memory.read_cons]
  | cons c m ih =>
    obtain ⟨x, w⟩ := c
    simp only [Memory.write]
    split
    · simp [Memory.read_cons]
    · split
      · simp [Memory.read_cons]
      · rw [Memory.read_cons, if_neg (by omega), ih]

/-- A write leaves every other cell as it is. -/
theorem Memory.read_write_ne (m : Memory) {a b : Nat} (v : Byte) (h : a ≠ b) : (m.write a v).read b = m.read b := by
  induction m with
  | nil => simp [Memory.write, Memory.read_cons, h, Memory.read_nil]
  | cons c m ih =>
    obtain ⟨x, w⟩ := c
    simp only [Memory.write]
    split
    · rw [Memory.read_cons, if_neg h]
    · split
      · rename_i hx
        rw [Memory.read_cons, Memory.read_cons, if_neg h, if_neg (by omega)]
      · rw [Memory.read_cons, Memory.read_cons, ih]

theorem Memory.read_write (m : Memory) (a b : Nat) (v : Byte) :
    (m.write a v).read b = if a = b then some v else m.read b := by
  split
  · rename_i h; rw [← h, Memory.read_write_same]
  · rename_i h; exact Memory.read_write_ne m v h

/-- The cells below `n` hold no value after `dropBelow n`, the others are as they were. -/
theorem Memory.read_dropBelow (m : Memory) (n a : Nat) :
    (m.dropBelow n).read a = if a < n then none else m.read a := by
  induction m with
  | nil => simp [Memory.dropBelow, Memory.read_nil]
  | cons c m ih =>
    obtain ⟨x, w⟩ := c
    by_cases hx : n ≤ x
    · have : Memory.dropBelow ((x, w) :: m) n = (x, w) :: Memory.dropBelow m n := by
        simp [Memory.dropBelow, hx]
      rw [this, Memory.read_cons, Memory.read_cons, ih]
      by_cases hxa : x = a
      · simp [hxa, show ¬a < n by omega]
      · simp [hxa]
    · have : Memory.dropBelow ((x, w) :: m) n = Memory.dropBelow m n := by
        simp [Memory.dropBelow, hx]
      rw [this, ih, Memory.read_cons]
      by_cases ha : a < n
      · simp [ha]
      · simp [ha, show ¬x = a by omega]

/-- The canonical form is the pairwise order of the offsets. -/
theorem Memory.wf_iff_pairwise (m : Memory) : m.wf = true ↔ m.Pairwise fun a b => a.1 < b.1 := by
  induction m with
  | nil => simp [Memory.wf]
  | cons a m ih =>
    cases m with
    | nil => simp [Memory.wf]
    | cons b m =>
      simp only [Memory.wf, Bool.and_eq_true, decide_eq_true_eq, ih, List.pairwise_cons, List.mem_cons]
      constructor
      · rintro ⟨hab, hb, hm⟩
        refine ⟨?_, hb, hm⟩
        rintro c (rfl | hc)
        · exact hab
        · exact Nat.lt_trans hab (hb c hc)
      · rintro ⟨ha, hb, hm⟩
        exact ⟨ha b (Or.inl rfl), hb, hm⟩

theorem Memory.mem_write {m : Memory} {a : Nat} {v : Byte} {c : Host.Cell} (h : c ∈ m.write a v) :
    c = (a, v) ∨ c ∈ m := by
  induction m with
  | nil => simpa [Memory.write] using h
  | cons d m ih =>
    obtain ⟨x, w⟩ := d
    simp only [Memory.write] at h
    split at h
    · simpa using h
    · split at h
      · simp only [List.mem_cons] at h ⊢
        exact h.imp id Or.inr
      · simp only [List.mem_cons] at h ⊢
        rcases h with h | h
        · exact .inr (.inl h)
        · exact (ih h).imp id .inr

/-- A write keeps the canonical form. -/
theorem Memory.wf_write {m : Memory} (a : Nat) (v : Byte) (h : m.wf = true) : (m.write a v).wf = true := by
  rw [Memory.wf_iff_pairwise] at h ⊢
  induction m with
  | nil => simp [Memory.write]
  | cons d m ih =>
    obtain ⟨x, w⟩ := d
    obtain ⟨hx, hm⟩ := List.pairwise_cons.mp h
    simp only [Memory.write]
    split
    · rename_i hax
      refine List.pairwise_cons.mpr ⟨?_, h⟩
      intro c hc
      rcases List.mem_cons.mp hc with rfl | hc
      · exact hax
      · exact Nat.lt_trans hax (hx c hc)
    · split
      · rename_i hax
        exact List.pairwise_cons.mpr ⟨fun c hc => by have := hx c hc; simp at this ⊢; omega, hm⟩
      · rename_i hlt hne
        refine List.pairwise_cons.mpr ⟨?_, ih hm⟩
        intro c hc
        rcases Memory.mem_write hc with rfl | hc
        · simp; omega
        · exact hx c hc

/-- Leaving cells with no value keeps the canonical form. -/
theorem Memory.wf_dropBelow {m : Memory} (n : Nat) (h : m.wf = true) : (m.dropBelow n).wf = true := by
  rw [Memory.wf_iff_pairwise] at h ⊢
  exact h.filter _

theorem Memory.below_iff (n : Nat) (m : Memory) : m.below n = true ↔ ∀ c ∈ m, c.1 < n := by
  simp [Memory.below]

theorem Memory.below_write {m : Memory} {n a : Nat} (v : Byte) (h : m.below n = true) (ha : a < n) :
    (m.write a v).below n = true := by
  rw [Memory.below_iff] at h ⊢
  intro c hc
  rcases Memory.mem_write hc with rfl | hc
  · exact ha
  · exact h c hc

theorem Memory.below_dropBelow {m : Memory} {n : Nat} (k : Nat) (h : m.below n = true) :
    (m.dropBelow k).below n = true := by
  rw [Memory.below_iff] at h ⊢
  intro c hc
  exact h c (List.mem_filter.mp hc).1

/-- A slot's three cells. -/
theorem read_writeSlot (ct : Memory) (i a : Nat) (c : Rgb) :
    (writeSlot ct i c).read a =
      if a = 3 * i then some c.r else if a = 3 * i + 1 then some c.g else if a = 3 * i + 2 then some c.b
      else ct.read a := by
  simp only [writeSlot, Memory.read_write]
  split_ifs <;> first | rfl | omega

theorem writeSlot_wf {ct : Memory} (i : Nat) (c : Rgb) (h : ct.wf = true) : (writeSlot ct i c).wf = true :=
  Memory.wf_write _ _ (Memory.wf_write _ _ (Memory.wf_write _ _ h))

theorem writeSlot_below {ct : Memory} {n i : Nat} (c : Rgb) (h : ct.below n = true) (hi : 3 * i + 2 < n) :
    (writeSlot ct i c).below n = true :=
  Memory.below_write _ (Memory.below_write _ (Memory.below_write _ h (by omega)) (by omega)) hi

theorem setUsed_wf {um : Memory} (i : Nat) (h : um.wf = true) : (setUsed um i).wf = true :=
  Memory.wf_write _ _ h

theorem setUsed_below {um : Memory} {n i : Nat} (h : um.below n = true) (hi : i / 8 < n) :
    (setUsed um i).below n = true :=
  Memory.below_write _ h hi

/-- The memory operations a command or a host access uses keep the canonical form of all four arrays of `State.reset`,
which lists nothing. -/
theorem reset_memory_wf :
    State.reset.pix.wf = true ∧ State.reset.idx.wf = true ∧ State.reset.ct.wf = true ∧ State.reset.um.wf = true :=
  ⟨rfl, rfl, rfl, rfl⟩

end Sys2Proof.Machine
end

