-- ==== Sys2Proof/Laws/State.lean ====
section
/-! SUPPORT. What each named update of State does to each field: one lemma a field, true by unfolding. -/

namespace Sys2Proof.Machine


/-! `complete` -/

@[simp] theorem complete_tv (s : State) : (complete s).tv = s.tv := rfl
@[simp] theorem complete_iv (s : State) : (complete s).iv = s.iv := rfl
@[simp] theorem complete_fail (s : State) : (complete s).fail = s.fail := rfl
@[simp] theorem complete_err (s : State) : (complete s).err = .noError := rfl
@[simp] theorem complete_errInfo (s : State) : (complete s).errInfo = 0 := rfl
@[simp] theorem complete_frameW (s : State) : (complete s).frameW = s.frameW := rfl
@[simp] theorem complete_frameH (s : State) : (complete s).frameH = s.frameH := rfl
@[simp] theorem complete_nColors (s : State) : (complete s).nColors = s.nColors := rfl
@[simp] theorem complete_fcTarget (s : State) : (complete s).fcTarget = s.fcTarget := rfl
@[simp] theorem complete_fcResult (s : State) : (complete s).fcResult = s.fcResult := rfl
@[simp] theorem complete_encBytes (s : State) : (complete s).encBytes = s.encBytes := rfl
@[simp] theorem complete_encMcs (s : State) : (complete s).encMcs = s.encMcs := rfl
@[simp] theorem complete_pix (s : State) : (complete s).pix = s.pix := rfl
@[simp] theorem complete_idx (s : State) : (complete s).idx = s.idx := rfl
@[simp] theorem complete_ct (s : State) : (complete s).ct = s.ct := rfl
@[simp] theorem complete_um (s : State) : (complete s).um = s.um := rfl
@[simp] theorem complete_sink (s : State) : (complete s).sink = s.sink := rfl
@[simp] theorem complete_host (s : State) : (complete s).host = s.host := rfl
@[simp] theorem complete_reads (s : State) : (complete s).reads = s.reads := rfl
@[simp] theorem complete_maxPix (s : State) : (complete s).maxPix = s.maxPix := rfl

/-! `resetRegisters` -/

@[simp] theorem resetRegisters_tv (s : State) : (resetRegisters s).tv = false := rfl
@[simp] theorem resetRegisters_iv (s : State) : (resetRegisters s).iv = false := rfl
@[simp] theorem resetRegisters_fail (s : State) : (resetRegisters s).fail = false := rfl
@[simp] theorem resetRegisters_err (s : State) : (resetRegisters s).err = .noError := rfl
@[simp] theorem resetRegisters_errInfo (s : State) : (resetRegisters s).errInfo = 0 := rfl
@[simp] theorem resetRegisters_frameW (s : State) : (resetRegisters s).frameW = 0 := rfl
@[simp] theorem resetRegisters_frameH (s : State) : (resetRegisters s).frameH = 0 := rfl
@[simp] theorem resetRegisters_nColors (s : State) : (resetRegisters s).nColors = 0 := rfl
@[simp] theorem resetRegisters_fcTarget (s : State) : (resetRegisters s).fcTarget = 0 := rfl
@[simp] theorem resetRegisters_fcResult (s : State) : (resetRegisters s).fcResult = noTableResult := rfl
@[simp] theorem resetRegisters_encBytes (s : State) : (resetRegisters s).encBytes = 0 := rfl
@[simp] theorem resetRegisters_encMcs (s : State) : (resetRegisters s).encMcs = 0 := rfl
@[simp] theorem resetRegisters_pix (s : State) : (resetRegisters s).pix = s.pix := rfl
@[simp] theorem resetRegisters_idx (s : State) : (resetRegisters s).idx = s.idx := rfl
@[simp] theorem resetRegisters_ct (s : State) : (resetRegisters s).ct = s.ct := rfl
@[simp] theorem resetRegisters_um (s : State) : (resetRegisters s).um = s.um := rfl
@[simp] theorem resetRegisters_sink (s : State) : (resetRegisters s).sink = s.sink := rfl
@[simp] theorem resetRegisters_host (s : State) : (resetRegisters s).host = s.host := rfl
@[simp] theorem resetRegisters_reads (s : State) : (resetRegisters s).reads = s.reads := rfl
@[simp] theorem resetRegisters_maxPix (s : State) : (resetRegisters s).maxPix = s.maxPix := rfl

/-! `powerOnReset` -/

@[simp] theorem powerOnReset_tv (s : State) : (powerOnReset s).tv = false := rfl
@[simp] theorem powerOnReset_iv (s : State) : (powerOnReset s).iv = false := rfl
@[simp] theorem powerOnReset_fail (s : State) : (powerOnReset s).fail = false := rfl
@[simp] theorem powerOnReset_err (s : State) : (powerOnReset s).err = .noError := rfl
@[simp] theorem powerOnReset_errInfo (s : State) : (powerOnReset s).errInfo = 0 := rfl
@[simp] theorem powerOnReset_frameW (s : State) : (powerOnReset s).frameW = 0 := rfl
@[simp] theorem powerOnReset_frameH (s : State) : (powerOnReset s).frameH = 0 := rfl
@[simp] theorem powerOnReset_nColors (s : State) : (powerOnReset s).nColors = 0 := rfl
@[simp] theorem powerOnReset_fcTarget (s : State) : (powerOnReset s).fcTarget = 0 := rfl
@[simp] theorem powerOnReset_fcResult (s : State) : (powerOnReset s).fcResult = noTableResult := rfl
@[simp] theorem powerOnReset_encBytes (s : State) : (powerOnReset s).encBytes = 0 := rfl
@[simp] theorem powerOnReset_encMcs (s : State) : (powerOnReset s).encMcs = 0 := rfl
@[simp] theorem powerOnReset_pix (s : State) : (powerOnReset s).pix = [] := rfl
@[simp] theorem powerOnReset_idx (s : State) : (powerOnReset s).idx = [] := rfl
@[simp] theorem powerOnReset_ct (s : State) : (powerOnReset s).ct = [] := rfl
@[simp] theorem powerOnReset_um (s : State) : (powerOnReset s).um = [] := rfl
@[simp] theorem powerOnReset_sink (s : State) : (powerOnReset s).sink = s.sink := rfl
@[simp] theorem powerOnReset_host (s : State) : (powerOnReset s).host = s.host := rfl
@[simp] theorem powerOnReset_reads (s : State) : (powerOnReset s).reads = s.reads := rfl
@[simp] theorem powerOnReset_maxPix (s : State) : (powerOnReset s).maxPix = s.maxPix := rfl

/-! `markTableValid` -/

@[simp] theorem markTableValid_tv (n : Nat) (s : State) : (markTableValid n s).tv = true := rfl
@[simp] theorem markTableValid_iv (n : Nat) (s : State) : (markTableValid n s).iv = true := rfl
@[simp] theorem markTableValid_fail (n : Nat) (s : State) : (markTableValid n s).fail = s.fail := rfl
@[simp] theorem markTableValid_err (n : Nat) (s : State) : (markTableValid n s).err = s.err := rfl
@[simp] theorem markTableValid_errInfo (n : Nat) (s : State) : (markTableValid n s).errInfo = s.errInfo := rfl
@[simp] theorem markTableValid_frameW (n : Nat) (s : State) : (markTableValid n s).frameW = s.frameW := rfl
@[simp] theorem markTableValid_frameH (n : Nat) (s : State) : (markTableValid n s).frameH = s.frameH := rfl
@[simp] theorem markTableValid_nColors (n : Nat) (s : State) : (markTableValid n s).nColors = BitVec.ofNat 9 n := rfl
@[simp] theorem markTableValid_fcTarget (n : Nat) (s : State) : (markTableValid n s).fcTarget = s.fcTarget := rfl
@[simp] theorem markTableValid_fcResult (n : Nat) (s : State) : (markTableValid n s).fcResult = s.fcResult := rfl
@[simp] theorem markTableValid_encBytes (n : Nat) (s : State) : (markTableValid n s).encBytes = s.encBytes := rfl
@[simp] theorem markTableValid_encMcs (n : Nat) (s : State) : (markTableValid n s).encMcs = s.encMcs := rfl
@[simp] theorem markTableValid_pix (n : Nat) (s : State) : (markTableValid n s).pix = s.pix := rfl
@[simp] theorem markTableValid_idx (n : Nat) (s : State) : (markTableValid n s).idx = s.idx := rfl
@[simp] theorem markTableValid_ct (n : Nat) (s : State) : (markTableValid n s).ct = s.ct := rfl
@[simp] theorem markTableValid_um (n : Nat) (s : State) : (markTableValid n s).um = s.um := rfl
@[simp] theorem markTableValid_sink (n : Nat) (s : State) : (markTableValid n s).sink = s.sink := rfl
@[simp] theorem markTableValid_host (n : Nat) (s : State) : (markTableValid n s).host = s.host := rfl
@[simp] theorem markTableValid_reads (n : Nat) (s : State) : (markTableValid n s).reads = s.reads := rfl
@[simp] theorem markTableValid_maxPix (n : Nat) (s : State) : (markTableValid n s).maxPix = s.maxPix := rfl

/-! `markTableInvalid` -/

@[simp] theorem markTableInvalid_tv (s : State) : (markTableInvalid s).tv = false := rfl
@[simp] theorem markTableInvalid_iv (s : State) : (markTableInvalid s).iv = false := rfl
@[simp] theorem markTableInvalid_fail (s : State) : (markTableInvalid s).fail = s.fail := rfl
@[simp] theorem markTableInvalid_err (s : State) : (markTableInvalid s).err = s.err := rfl
@[simp] theorem markTableInvalid_errInfo (s : State) : (markTableInvalid s).errInfo = s.errInfo := rfl
@[simp] theorem markTableInvalid_frameW (s : State) : (markTableInvalid s).frameW = s.frameW := rfl
@[simp] theorem markTableInvalid_frameH (s : State) : (markTableInvalid s).frameH = s.frameH := rfl
@[simp] theorem markTableInvalid_nColors (s : State) : (markTableInvalid s).nColors = 0 := rfl
@[simp] theorem markTableInvalid_fcTarget (s : State) : (markTableInvalid s).fcTarget = s.fcTarget := rfl
@[simp] theorem markTableInvalid_fcResult (s : State) : (markTableInvalid s).fcResult = s.fcResult := rfl
@[simp] theorem markTableInvalid_encBytes (s : State) : (markTableInvalid s).encBytes = s.encBytes := rfl
@[simp] theorem markTableInvalid_encMcs (s : State) : (markTableInvalid s).encMcs = s.encMcs := rfl
@[simp] theorem markTableInvalid_pix (s : State) : (markTableInvalid s).pix = s.pix := rfl
@[simp] theorem markTableInvalid_idx (s : State) : (markTableInvalid s).idx = s.idx := rfl
@[simp] theorem markTableInvalid_ct (s : State) : (markTableInvalid s).ct = s.ct := rfl
@[simp] theorem markTableInvalid_um (s : State) : (markTableInvalid s).um = s.um := rfl
@[simp] theorem markTableInvalid_sink (s : State) : (markTableInvalid s).sink = s.sink := rfl
@[simp] theorem markTableInvalid_host (s : State) : (markTableInvalid s).host = s.host := rfl
@[simp] theorem markTableInvalid_reads (s : State) : (markTableInvalid s).reads = s.reads := rfl
@[simp] theorem markTableInvalid_maxPix (s : State) : (markTableInvalid s).maxPix = s.maxPix := rfl

/-! `encodeProgress` -/

@[simp] theorem encodeProgress_tv (m n : Nat) (k : Sink) (s : State) : (encodeProgress m n k s).tv = s.tv := rfl
@[simp] theorem encodeProgress_iv (m n : Nat) (k : Sink) (s : State) : (encodeProgress m n k s).iv = s.iv := rfl
@[simp] theorem encodeProgress_fail (m n : Nat) (k : Sink) (s : State) : (encodeProgress m n k s).fail = s.fail := rfl
@[simp] theorem encodeProgress_err (m n : Nat) (k : Sink) (s : State) : (encodeProgress m n k s).err = s.err := rfl
@[simp] theorem encodeProgress_errInfo (m n : Nat) (k : Sink) (s : State) : (encodeProgress m n k s).errInfo = s.errInfo := rfl
@[simp] theorem encodeProgress_frameW (m n : Nat) (k : Sink) (s : State) : (encodeProgress m n k s).frameW = s.frameW := rfl
@[simp] theorem encodeProgress_frameH (m n : Nat) (k : Sink) (s : State) : (encodeProgress m n k s).frameH = s.frameH := rfl
@[simp] theorem encodeProgress_nColors (m n : Nat) (k : Sink) (s : State) : (encodeProgress m n k s).nColors = s.nColors := rfl
@[simp] theorem encodeProgress_fcTarget (m n : Nat) (k : Sink) (s : State) : (encodeProgress m n k s).fcTarget = s.fcTarget := rfl
@[simp] theorem encodeProgress_fcResult (m n : Nat) (k : Sink) (s : State) : (encodeProgress m n k s).fcResult = s.fcResult := rfl
@[simp] theorem encodeProgress_encBytes (m n : Nat) (k : Sink) (s : State) : (encodeProgress m n k s).encBytes = encByteCount k.offered n := rfl
@[simp] theorem encodeProgress_encMcs (m n : Nat) (k : Sink) (s : State) : (encodeProgress m n k s).encMcs = BitVec.ofNat 4 m := rfl
@[simp] theorem encodeProgress_pix (m n : Nat) (k : Sink) (s : State) : (encodeProgress m n k s).pix = s.pix := rfl
@[simp] theorem encodeProgress_idx (m n : Nat) (k : Sink) (s : State) : (encodeProgress m n k s).idx = s.idx := rfl
@[simp] theorem encodeProgress_ct (m n : Nat) (k : Sink) (s : State) : (encodeProgress m n k s).ct = s.ct := rfl
@[simp] theorem encodeProgress_um (m n : Nat) (k : Sink) (s : State) : (encodeProgress m n k s).um = s.um := rfl
@[simp] theorem encodeProgress_sink (m n : Nat) (k : Sink) (s : State) : (encodeProgress m n k s).sink = k := rfl
@[simp] theorem encodeProgress_host (m n : Nat) (k : Sink) (s : State) : (encodeProgress m n k s).host = s.host := rfl
@[simp] theorem encodeProgress_reads (m n : Nat) (k : Sink) (s : State) : (encodeProgress m n k s).reads = s.reads := rfl
@[simp] theorem encodeProgress_maxPix (m n : Nat) (k : Sink) (s : State) : (encodeProgress m n k s).maxPix = s.maxPix := rfl

/-! `encodeComplete` -/

@[simp] theorem encodeComplete_tv (s : State) : (encodeComplete s).tv = s.tv := rfl
@[simp] theorem encodeComplete_iv (s : State) : (encodeComplete s).iv = false := rfl
@[simp] theorem encodeComplete_fail (s : State) : (encodeComplete s).fail = s.fail := rfl
@[simp] theorem encodeComplete_err (s : State) : (encodeComplete s).err = .noError := rfl
@[simp] theorem encodeComplete_errInfo (s : State) : (encodeComplete s).errInfo = 0 := rfl
@[simp] theorem encodeComplete_frameW (s : State) : (encodeComplete s).frameW = s.frameW := rfl
@[simp] theorem encodeComplete_frameH (s : State) : (encodeComplete s).frameH = s.frameH := rfl
@[simp] theorem encodeComplete_nColors (s : State) : (encodeComplete s).nColors = s.nColors := rfl
@[simp] theorem encodeComplete_fcTarget (s : State) : (encodeComplete s).fcTarget = s.fcTarget := rfl
@[simp] theorem encodeComplete_fcResult (s : State) : (encodeComplete s).fcResult = s.fcResult := rfl
@[simp] theorem encodeComplete_encBytes (s : State) : (encodeComplete s).encBytes = s.encBytes := rfl
@[simp] theorem encodeComplete_encMcs (s : State) : (encodeComplete s).encMcs = s.encMcs := rfl
@[simp] theorem encodeComplete_pix (s : State) : (encodeComplete s).pix = s.pix := rfl
@[simp] theorem encodeComplete_idx (s : State) : (encodeComplete s).idx = s.idx.dropBelow s.pixelCount := rfl
@[simp] theorem encodeComplete_ct (s : State) : (encodeComplete s).ct = s.ct := rfl
@[simp] theorem encodeComplete_um (s : State) : (encodeComplete s).um = s.um := rfl
@[simp] theorem encodeComplete_sink (s : State) : (encodeComplete s).sink = s.sink := rfl
@[simp] theorem encodeComplete_host (s : State) : (encodeComplete s).host = s.host := rfl
@[simp] theorem encodeComplete_reads (s : State) : (encodeComplete s).reads = s.reads := rfl
@[simp] theorem encodeComplete_maxPix (s : State) : (encodeComplete s).maxPix = s.maxPix := rfl

/-! `quantComplete` -/

@[simp] theorem quantComplete_tv (q : Quantizer) (s : State) : (quantComplete q s).tv = true := rfl
@[simp] theorem quantComplete_iv (q : Quantizer) (s : State) : (quantComplete q s).iv = true := rfl
@[simp] theorem quantComplete_fail (q : Quantizer) (s : State) : (quantComplete q s).fail = s.fail := rfl
@[simp] theorem quantComplete_err (q : Quantizer) (s : State) : (quantComplete q s).err = .noError := rfl
@[simp] theorem quantComplete_errInfo (q : Quantizer) (s : State) : (quantComplete q s).errInfo = 0 := rfl
@[simp] theorem quantComplete_frameW (q : Quantizer) (s : State) : (quantComplete q s).frameW = s.frameW := rfl
@[simp] theorem quantComplete_frameH (q : Quantizer) (s : State) : (quantComplete q s).frameH = s.frameH := rfl
@[simp] theorem quantComplete_nColors (q : Quantizer) (s : State) : (quantComplete q s).nColors = BitVec.ofNat 9 q.nextFree := rfl
@[simp] theorem quantComplete_fcTarget (q : Quantizer) (s : State) : (quantComplete q s).fcTarget = s.fcTarget := rfl
@[simp] theorem quantComplete_fcResult (q : Quantizer) (s : State) : (quantComplete q s).fcResult = s.fcResult := rfl
@[simp] theorem quantComplete_encBytes (q : Quantizer) (s : State) : (quantComplete q s).encBytes = s.encBytes := rfl
@[simp] theorem quantComplete_encMcs (q : Quantizer) (s : State) : (quantComplete q s).encMcs = s.encMcs := rfl
@[simp] theorem quantComplete_pix (q : Quantizer) (s : State) : (quantComplete q s).pix = s.pix.dropBelow (3 * s.pixelCount) := rfl
@[simp] theorem quantComplete_idx (q : Quantizer) (s : State) : (quantComplete q s).idx = q.idx := rfl
@[simp] theorem quantComplete_ct (q : Quantizer) (s : State) : (quantComplete q s).ct = q.ct := rfl
@[simp] theorem quantComplete_um (q : Quantizer) (s : State) : (quantComplete q s).um = q.um := rfl
@[simp] theorem quantComplete_sink (q : Quantizer) (s : State) : (quantComplete q s).sink = s.sink := rfl
@[simp] theorem quantComplete_host (q : Quantizer) (s : State) : (quantComplete q s).host = s.host := rfl
@[simp] theorem quantComplete_reads (q : Quantizer) (s : State) : (quantComplete q s).reads = s.reads := rfl
@[simp] theorem quantComplete_maxPix (q : Quantizer) (s : State) : (quantComplete q s).maxPix = s.maxPix := rfl

/-! `raise_sinkFail` -/

@[simp] theorem raise_sinkFail_tv (w : Word) (s : State) : (raise .sinkFail w s).tv = false := rfl
@[simp] theorem raise_sinkFail_iv (w : Word) (s : State) : (raise .sinkFail w s).iv = false := rfl
@[simp] theorem raise_sinkFail_fail (w : Word) (s : State) : (raise .sinkFail w s).fail = true := rfl
@[simp] theorem raise_sinkFail_err (w : Word) (s : State) : (raise .sinkFail w s).err = .sinkFail := rfl
@[simp] theorem raise_sinkFail_errInfo (w : Word) (s : State) : (raise .sinkFail w s).errInfo = w := rfl
@[simp] theorem raise_sinkFail_frameW (w : Word) (s : State) : (raise .sinkFail w s).frameW = s.frameW := rfl
@[simp] theorem raise_sinkFail_frameH (w : Word) (s : State) : (raise .sinkFail w s).frameH = s.frameH := rfl
@[simp] theorem raise_sinkFail_nColors (w : Word) (s : State) : (raise .sinkFail w s).nColors = 0 := rfl
@[simp] theorem raise_sinkFail_fcTarget (w : Word) (s : State) : (raise .sinkFail w s).fcTarget = s.fcTarget := rfl
@[simp] theorem raise_sinkFail_fcResult (w : Word) (s : State) : (raise .sinkFail w s).fcResult = s.fcResult := rfl
@[simp] theorem raise_sinkFail_encBytes (w : Word) (s : State) : (raise .sinkFail w s).encBytes = s.encBytes := rfl
@[simp] theorem raise_sinkFail_encMcs (w : Word) (s : State) : (raise .sinkFail w s).encMcs = s.encMcs := rfl
@[simp] theorem raise_sinkFail_pix (w : Word) (s : State) : (raise .sinkFail w s).pix = s.pix := rfl
@[simp] theorem raise_sinkFail_idx (w : Word) (s : State) : (raise .sinkFail w s).idx = s.idx.dropBelow s.pixelCount := rfl
@[simp] theorem raise_sinkFail_ct (w : Word) (s : State) : (raise .sinkFail w s).ct = [] := rfl
@[simp] theorem raise_sinkFail_um (w : Word) (s : State) : (raise .sinkFail w s).um = [] := rfl
@[simp] theorem raise_sinkFail_sink (w : Word) (s : State) : (raise .sinkFail w s).sink = s.sink := rfl
@[simp] theorem raise_sinkFail_host (w : Word) (s : State) : (raise .sinkFail w s).host = s.host := rfl
@[simp] theorem raise_sinkFail_reads (w : Word) (s : State) : (raise .sinkFail w s).reads = s.reads := rfl
@[simp] theorem raise_sinkFail_maxPix (w : Word) (s : State) : (raise .sinkFail w s).maxPix = s.maxPix := rfl

/-! `raise_paletteOverflow` -/

@[simp] theorem raise_paletteOverflow_tv (w : Word) (s : State) : (raise .paletteOverflow w s).tv = false := rfl
@[simp] theorem raise_paletteOverflow_iv (w : Word) (s : State) : (raise .paletteOverflow w s).iv = false := rfl
@[simp] theorem raise_paletteOverflow_fail (w : Word) (s : State) : (raise .paletteOverflow w s).fail = s.fail := rfl
@[simp] theorem raise_paletteOverflow_err (w : Word) (s : State) : (raise .paletteOverflow w s).err = .paletteOverflow := rfl
@[simp] theorem raise_paletteOverflow_errInfo (w : Word) (s : State) : (raise .paletteOverflow w s).errInfo = w := rfl
@[simp] theorem raise_paletteOverflow_frameW (w : Word) (s : State) : (raise .paletteOverflow w s).frameW = s.frameW := rfl
@[simp] theorem raise_paletteOverflow_frameH (w : Word) (s : State) : (raise .paletteOverflow w s).frameH = s.frameH := rfl
@[simp] theorem raise_paletteOverflow_nColors (w : Word) (s : State) : (raise .paletteOverflow w s).nColors = 0 := rfl
@[simp] theorem raise_paletteOverflow_fcTarget (w : Word) (s : State) : (raise .paletteOverflow w s).fcTarget = s.fcTarget := rfl
@[simp] theorem raise_paletteOverflow_fcResult (w : Word) (s : State) : (raise .paletteOverflow w s).fcResult = s.fcResult := rfl
@[simp] theorem raise_paletteOverflow_encBytes (w : Word) (s : State) : (raise .paletteOverflow w s).encBytes = s.encBytes := rfl
@[simp] theorem raise_paletteOverflow_encMcs (w : Word) (s : State) : (raise .paletteOverflow w s).encMcs = s.encMcs := rfl
@[simp] theorem raise_paletteOverflow_pix (w : Word) (s : State) : (raise .paletteOverflow w s).pix = s.pix.dropBelow (3 * s.pixelCount) := rfl
@[simp] theorem raise_paletteOverflow_idx (w : Word) (s : State) : (raise .paletteOverflow w s).idx = s.idx.dropBelow s.pixelCount := rfl
@[simp] theorem raise_paletteOverflow_ct (w : Word) (s : State) : (raise .paletteOverflow w s).ct = [] := rfl
@[simp] theorem raise_paletteOverflow_um (w : Word) (s : State) : (raise .paletteOverflow w s).um = [] := rfl
@[simp] theorem raise_paletteOverflow_sink (w : Word) (s : State) : (raise .paletteOverflow w s).sink = s.sink := rfl
@[simp] theorem raise_paletteOverflow_host (w : Word) (s : State) : (raise .paletteOverflow w s).host = s.host := rfl
@[simp] theorem raise_paletteOverflow_reads (w : Word) (s : State) : (raise .paletteOverflow w s).reads = s.reads := rfl
@[simp] theorem raise_paletteOverflow_maxPix (w : Word) (s : State) : (raise .paletteOverflow w s).maxPix = s.maxPix := rfl

/-! The errors without state effects write ERR and ERR_INFO and nothing else. -/

@[simp] theorem raise_illCmd (w : Word) (s : State) :
    raise .illCmd w s = { s with err := .illCmd, errInfo := w } := rfl

@[simp] theorem raise_failed (w : Word) (s : State) :
    raise .failed w s = { s with err := .failed, errInfo := w } := rfl

@[simp] theorem raise_size (w : Word) (s : State) :
    raise .size w s = { s with err := .size, errInfo := w } := rfl

@[simp] theorem raise_codeSize (w : Word) (s : State) :
    raise .codeSize w s = { s with err := .codeSize, errInfo := w } := rfl

@[simp] theorem raise_notValid (w : Word) (s : State) :
    raise .notValid w s = { s with err := .notValid, errInfo := w } := rfl

@[simp] theorem raise_indexRange (w : Word) (s : State) :
    raise .indexRange w s = { s with err := .indexRange, errInfo := w } := rfl

/-! The pixel count depends on FRAME_W and FRAME_H alone. -/

@[simp] theorem complete_pixelCount (s : State) : (complete s).pixelCount = s.pixelCount := rfl

@[simp] theorem markTableValid_pixelCount (n : Nat) (s : State) : (markTableValid n s).pixelCount = s.pixelCount := rfl

@[simp] theorem markTableInvalid_pixelCount (s : State) : (markTableInvalid s).pixelCount = s.pixelCount := rfl

@[simp] theorem encodeProgress_pixelCount (m n : Nat) (k : Sink) (s : State) : (encodeProgress m n k s).pixelCount = s.pixelCount := rfl

@[simp] theorem encodeComplete_pixelCount (s : State) : (encodeComplete s).pixelCount = s.pixelCount := rfl

@[simp] theorem quantComplete_pixelCount (q : Quantizer) (s : State) : (quantComplete q s).pixelCount = s.pixelCount := rfl

/-! The sink. -/

@[simp] theorem Sink.advance_history (k : Sink) : k.advance.history = k.history := rfl
@[simp] theorem Sink.advance_offered (k : Sink) : k.advance.offered = k.offered + 1 := rfl
@[simp] theorem Sink.accept_history (b : Byte) (k : Sink) : (k.accept b).history = k.history ++ [b] := rfl
@[simp] theorem Sink.accept_offered (b : Byte) (k : Sink) : (k.accept b).offered = k.offered + 1 := rfl

end Sys2Proof.Machine
end

