-- ==== Sys2Proof/Laws/Ops.lean ====
section
/-! SUPPORT. For each shared operation, once, everything it can do. -/

namespace Sys2Proof.Machine

/-! ## Reads -/

theorem readCell_ok {space : Space} {offset : Nat} {s : State} {b : Byte} :
    readCell space offset s = .ok b ↔ (s.array space).read offset = some b := by
  unfold readCell
  cases (s.array space).read offset <;> simp

/-- A read of a cell stops for one reason: the cell holds no value. -/
theorem readCell_error {space : Space} {offset : Nat} {s : State} {f : Fault} :
    readCell space offset s = .error f ↔ (s.array space).read offset = none ∧ f = .noValue space offset := by
  unfold readCell
  cases (s.array space).read offset <;> simp [eq_comm]

theorem readRgb_ok {space : Space} {offset : Nat} {s : State} {c : Rgb} :
    readRgb space offset s = .ok c ↔
      (s.array space).read offset = some c.r ∧ (s.array space).read (offset + 1) = some c.g ∧
        (s.array space).read (offset + 2) = some c.b := by
  obtain ⟨r, g, b⟩ := c
  unfold readRgb readCell
  cases (s.array space).read offset <;> cases (s.array space).read (offset + 1) <;>
    cases (s.array space).read (offset + 2) <;> simp

/-- A read of a color stops at the first of its three cells that holds no value. -/
theorem readRgb_error {space : Space} {offset : Nat} {s : State} {f : Fault} (h : readRgb space offset s = .error f) :
    ∃ d < 3, (s.array space).read (offset + d) = none ∧ f = .noValue space (offset + d) := by
  unfold readRgb at h
  split at h
  · rename_i h0
    cases h
    obtain ⟨e0, rfl⟩ := readCell_error.mp h0
    exact ⟨0, by omega, e0, rfl⟩
  · split at h
    · rename_i h1
      cases h
      obtain ⟨e1, rfl⟩ := readCell_error.mp h1
      exact ⟨1, by omega, e1, rfl⟩
    · split at h
      · rename_i h2
        cases h
        obtain ⟨e2, rfl⟩ := readCell_error.mp h2
        exact ⟨2, by omega, e2, rfl⟩
      · cases h

theorem readUsed_ok {i : Nat} {s : State} {u : Bool} :
    readUsed i s = .ok u ↔ ∃ b, s.um.read (i / 8) = some b ∧ b.getLsbD (i % 8) = u := by
  unfold readUsed readCell
  simp only [State.array]
  cases s.um.read (i / 8) <;> simp

/-- Reads depend on the array they read and on nothing else. -/
theorem readCell_congr {space : Space} {offset : Nat} {s t : State} (h : s.array space = t.array space) :
    readCell space offset s = readCell space offset t := by
  unfold readCell
  rw [h]

theorem readRgb_congr {space : Space} {offset : Nat} {s t : State} (h : s.array space = t.array space) :
    readRgb space offset s = readRgb space offset t := by
  unfold readRgb
  simp only [readCell_congr h]

theorem readUsed_congr {i : Nat} {s t : State} (h : s.um = t.um) : readUsed i s = readUsed i t := by
  unfold readUsed
  rw [readCell_congr (t := t) (by simpa [State.array] using h)]

/-! ## The pixel count -/

/-- N fits in 32 bits: its largest value is 65535² (10_state R51). -/
theorem pixelCount_lt (s : State) : s.pixelCount < 2 ^ 32 := by
  have hw := s.frameW.isLt
  have hh := s.frameH.isLt
  unfold State.pixelCount
  calc s.frameW.toNat * s.frameH.toNat ≤ 65535 * 65535 := Nat.mul_le_mul (by omega) (by omega)
    _ < 2 ^ 32 := by norm_num

/-! ## The failed state -/

theorem unlessFailed_of_not {s : State} {act : Host.Outcome State Fault Refusal} (h : s.fail = false) :
    unlessFailed s act = act := by
  simp [unlessFailed, h]

theorem unlessFailed_of_fail {s : State} {act : Host.Outcome State Fault Refusal} (h : s.fail = true) :
    unlessFailed s act = .next (raise .failed 0 s) := by
  simp [unlessFailed, h]

/-! ## The sink -/

theorem Sink.nextAnswer_eq (k : Sink) : k.nextAnswer = k.answerAt 0 := by
  unfold Sink.nextAnswer Sink.answerAt
  cases k.answers <;> simp

@[simp] theorem Sink.advance_answerAt (k : Sink) (j : Nat) : k.advance.answerAt j = k.answerAt (j + 1) := by
  unfold Sink.answerAt Sink.advance
  cases k.answers <;> simp [Nat.add_comm, Nat.add_left_comm]

@[simp] theorem Sink.accept_answerAt (b : Byte) (k : Sink) (j : Nat) :
    (k.accept b).answerAt j = k.answerAt (j + 1) :=
  k.advance_answerAt j

theorem Sink.accept_after (b : Byte) (k : Sink) (bs : List Byte) (n : Nat) :
    (k.accept b).after bs n = k.after (b :: bs) (n + 1) := by
  simp [Sink.after, Sink.accept, Sink.advance, Nat.add_comm, Nat.add_left_comm]

theorem Sink.advance_eq_after (k : Sink) : k.advance = k.after [] 1 := by
  simp [Sink.after, Sink.advance]

theorem Sink.after_nil_zero (k : Sink) : k.after [] 0 = k := by
  simp [Sink.after]

/-- Everything a run of offered bytes can do: the sink accepts them all, or it rejects byte j after accepting the j
before it, or it never answers byte j. -/
theorem Sink.offerAll_cases (bs : List Byte) (n : Nat) (k : Sink) :
    ((∀ j < bs.length, k.answerAt j = .accept) ∧ Sink.offerAll bs n k = .allAccepted (k.after bs bs.length)) ∨
    (∃ j < bs.length, (∀ i < j, k.answerAt i = .accept) ∧ k.answerAt j = .reject ∧
      Sink.offerAll bs n k = .rejected (n + j) (k.after (bs.take j) (j + 1))) ∨
    (∃ j < bs.length, (∀ i < j, k.answerAt i = .accept) ∧ k.answerAt j = .silent ∧
      Sink.offerAll bs n k = .silent) := by
  induction bs generalizing n k with
  | nil => exact .inl ⟨by simp, by simp [Sink.offerAll, Sink.after_nil_zero]⟩
  | cons b bs ih =>
    have lift : ∀ j, (∀ i < j, (k.accept b).answerAt i = .accept) → k.answerAt 0 = .accept →
        ∀ i < j + 1, k.answerAt i = .accept := by
      intro j h h0 i hi
      cases i with
      | zero => exact h0
      | succ i => simpa using h i (by omega)
    unfold Sink.offerAll
    rw [Sink.nextAnswer_eq]
    split
    · rename_i h0
      rcases ih (n + 1) (k.accept b) with ⟨h, e⟩ | ⟨j, hj, h, hr, e⟩ | ⟨j, hj, h, hr, e⟩
      · exact .inl ⟨lift _ h h0, by rw [e, Sink.accept_after]; rfl⟩
      · refine .inr (.inl ⟨j + 1, by simpa using hj, lift j h h0, by simpa using hr, ?_⟩)
        rw [e, Sink.accept_after, List.take_succ_cons, Nat.add_right_comm, Nat.add_assoc n j 1]
      · exact .inr (.inr ⟨j + 1, by simpa using hj, lift j h h0, by simpa using hr, e⟩)
    · rename_i h0
      exact .inr (.inl ⟨0, by simp, by simp, h0, by simp [Sink.advance_eq_after]⟩)
    · rename_i h0
      exact .inr (.inr ⟨0, by simp, by simp, h0, rfl⟩)

theorem encByteCount_of_lt {offered n : Nat} (h : n < 2 ^ 32) : encByteCount offered n = BitVec.ofNat 32 n := by
  unfold encByteCount
  rw [if_pos h]

end Sys2Proof.Machine
end

