-- ==== Sys2Proof/Laws/Exec.lean ====
section
/-! SUPPORT. What each command can do, once: one case lemma a command, one induction a loop, and the two case lemmas of a
step. Every invariant and frame follows from these. -/

namespace Sys2Proof.Machine

/-! ## QUANT -/

/-- One pixel: a color seen before, a new color with a free slot, or a new color without one. -/
theorem quantPixel_cases (k : Nat) (c : Rgb) (q : Quantizer) :
    (∃ i, q.cmap.lookup (colorKey c) = some i ∧
      quantPixel k c q = some { q with idx := q.idx.write k (BitVec.ofNat 8 i) }) ∨
    (q.cmap.lookup (colorKey c) = none ∧ q.nextFree = 256 ∧ quantPixel k c q = none) ∨
    (q.cmap.lookup (colorKey c) = none ∧ q.nextFree ≠ 256 ∧
      quantPixel k c q = some ⟨(colorKey c, q.nextFree) :: q.cmap, q.nextFree + 1, writeSlot q.ct q.nextFree c,
        setUsed q.um q.nextFree, q.idx.write k (BitVec.ofNat 8 q.nextFree)⟩) := by
  unfold quantPixel
  cases h : q.cmap.lookup (colorKey c) with
  | some i => exact .inl ⟨i, rfl, rfl⟩
  | none =>
    by_cases hf : q.nextFree = Config.overflowAt
    · exact .inr (.inl ⟨rfl, hf, by simp [hf]⟩)
    · exact .inr (.inr ⟨rfl, hf, by simp [hf]⟩)

/-- What holds at the start of the scan and is kept by every pixel holds when the scan is done. -/
theorem quantScan_done_induct {s : State} {P : Nat → Quantizer → Prop}
    (pixel : ∀ k c q q', readPixel k s = .ok c → quantPixel k c q = some q' → P k q → P (k + 1) q')
    {n k : Nat} {q q' : Quantizer} (h : quantScan s n k q = .done q') (start : P k q) : P (k + n) q' := by
  induction n generalizing k q with
  | zero =>
    simp only [quantScan, QuantScan.done.injEq] at h
    simpa [← h] using start
  | succ n ih =>
    unfold quantScan at h
    split at h
    · cases h
    · rename_i c hc
      split at h
      · cases h
      · rename_i q'' hq
        have := ih h (pixel k c q q'' hc hq start)
        rwa [Nat.add_right_comm] at this

/-- A scan that overflows does so at a pixel of the frame, before which every pixel got its index. -/
theorem quantScan_overflow {s : State} {n k j : Nat} {q : Quantizer} (h : quantScan s n k q = .overflow j) :
    k ≤ j ∧ j < k + n ∧ ∃ q' c, quantScan s (j - k) k q = .done q' ∧ readPixel j s = .ok c ∧ quantPixel j c q' = none := by
  induction n generalizing k q with
  | zero => simp [quantScan] at h
  | succ n ih =>
    unfold quantScan at h
    split at h
    · cases h
    · rename_i c hc
      split at h
      · rename_i hq
        cases h
        exact ⟨le_rfl, by omega, q, c, by simp [quantScan], hc, hq⟩
      · rename_i q'' hq
        obtain ⟨hk, hj, q', c', hd, hr, hn⟩ := ih h
        refine ⟨by omega, by omega, q', c', ?_, hr, hn⟩
        obtain ⟨d, rfl⟩ : ∃ d, j = k + 1 + d := ⟨j - (k + 1), by omega⟩
        rw [show k + 1 + d - k = d + 1 by omega]
        rw [show k + 1 + d - (k + 1) = d by omega] at hd
        unfold quantScan
        simp only [hc, hq]
        exact hd

/-- Everything QUANT can do. -/
theorem execQuant_cases (s : State) :
    (s.fail = true ∧ execQuant s = .next (raise .failed 0 s)) ∨
    (s.fail = false ∧ s.maxPix < s.pixelCount ∧
      execQuant s = .next (raise .size (BitVec.ofNat 32 s.pixelCount) s)) ∨
    (s.fail = false ∧ s.pixelCount ≤ s.maxPix ∧
      ((∃ f, quantScan s s.pixelCount 0 (quantStart s.idx) = .stop f ∧ execQuant s = .fault f) ∨
       (∃ k, quantScan s s.pixelCount 0 (quantStart s.idx) = .overflow k ∧
         execQuant s = .next (raise .paletteOverflow (BitVec.ofNat 32 k) s)) ∨
       (∃ q, quantScan s s.pixelCount 0 (quantStart s.idx) = .done q ∧
         execQuant s = .next (quantComplete q s)))) := by
  unfold execQuant
  cases hf : s.fail with
  | true => exact .inl ⟨rfl, unlessFailed_of_fail hf⟩
  | false =>
    rw [unlessFailed_of_not hf]
    by_cases hn : s.maxPix < s.pixelCount
    · exact .inr (.inl ⟨rfl, hn, by rw [if_pos hn]⟩)
    · refine .inr (.inr ⟨rfl, by omega, ?_⟩)
      rw [if_neg hn]
      cases quantScan s s.pixelCount 0 (quantStart s.idx) with
      | stop f => exact .inl ⟨f, rfl, rfl⟩
      | overflow k => exact .inr (.inl ⟨k, rfl, rfl⟩)
      | done q => exact .inr (.inr ⟨q, rfl, rfl⟩)

/-! ## FINDC -/

/-- Everything FINDC can do. -/
theorem execFindc_cases (s : State) :
    (s.fail = true ∧ execFindc s = .next (raise .failed 0 s)) ∨
    (s.fail = false ∧ s.tv = false ∧ execFindc s = .next (complete { s with fcResult := noTableResult })) ∨
    (s.fail = false ∧ s.tv = true ∧
      ((∃ f, nearest s s.target 256 0 0 (2 ^ 24) = .error f ∧ execFindc s = .fault f) ∨
       (∃ best, nearest s s.target 256 0 0 (2 ^ 24) = .ok best ∧
         execFindc s = .next (complete { s with fcResult := slotResult best })))) := by
  unfold execFindc
  cases hf : s.fail with
  | true => exact .inl ⟨rfl, unlessFailed_of_fail hf⟩
  | false =>
    rw [unlessFailed_of_not hf]
    cases ht : s.tv with
    | false => exact .inr (.inl ⟨rfl, rfl, rfl⟩)
    | true =>
      refine .inr (.inr ⟨rfl, rfl, ?_⟩)
      rw [if_pos rfl]
      unfold Config.ctSlots
      cases nearest s s.target 256 0 0 (2 ^ 24) with
      | error f => exact .inl ⟨f, rfl, rfl⟩
      | ok best => exact .inr ⟨best, rfl, rfl⟩

/-- What holds at the start of FINDC's scan of n slots, with the next slot, the best slot and its distance, and is kept
by a slot out of use, a nearer slot and a slot no nearer, holds at its end. -/
theorem nearest_ok_induct {s : State} {t : Rgb} {P : Nat → Nat → Nat → Prop}
    (unused : ∀ i best dmin, readUsed i s = .ok false → P i best dmin → P (i + 1) best dmin)
    (nearer : ∀ i best dmin c, readUsed i s = .ok true → readSlot i s = .ok c → colorDist t c < dmin →
      P i best dmin → P (i + 1) i (colorDist t c))
    (farther : ∀ i best dmin c, readUsed i s = .ok true → readSlot i s = .ok c → dmin ≤ colorDist t c →
      P i best dmin → P (i + 1) best dmin)
    {n i best dmin r : Nat} (h : nearest s t n i best dmin = .ok r) (start : P i best dmin) : ∃ d, P (i + n) r d := by
  induction n generalizing i best dmin with
  | zero =>
    simp only [nearest, Except.ok.injEq] at h
    exact ⟨dmin, by simpa [← h] using start⟩
  | succ n ih =>
    rw [show i + (n + 1) = i + 1 + n by omega]
    unfold nearest at h
    split at h
    · cases h
    · rename_i hu
      exact ih h (unused i best dmin hu start)
    · rename_i hu
      split at h
      · cases h
      · rename_i c hc
        split at h
        · rename_i hd
          exact ih h (nearer i best dmin c hu hc hd start)
        · rename_i hd
          exact ih h (farther i best dmin c hu hc (Nat.le_of_not_lt hd) start)

/-! ## ENCODE -/

/-- Everything the pre-scan can find: every index in range, a first index out of range, or a first cell without a value. -/
theorem indexScan_cases (s : State) (clear n k : Nat) :
    (∃ ids, indexScan s clear n k = .inRange ids ∧ ids.length = n ∧
      ∀ j (h : j < ids.length), s.idx.read (k + j) = some ids[j] ∧ ids[j].toNat < clear) ∨
    (∃ j < n, ∃ b, indexScan s clear n k = .outOfRange (k + j) ∧ s.idx.read (k + j) = some b ∧ clear ≤ b.toNat ∧
      ∀ i < j, ∃ b', s.idx.read (k + i) = some b' ∧ b'.toNat < clear) ∨
    (∃ j < n, indexScan s clear n k = .stop (.noValue .idx (k + j)) ∧ s.idx.read (k + j) = none ∧
      ∀ i < j, ∃ b', s.idx.read (k + i) = some b' ∧ b'.toNat < clear) := by
  induction n generalizing k with
  | zero => exact .inl ⟨[], rfl, rfl, by simp⟩
  | succ n ih =>
    unfold indexScan
    cases hr : readCell .idx k s with
    | error f =>
      obtain ⟨h0, rfl⟩ := readCell_error.mp hr
      exact .inr (.inr ⟨0, by omega, rfl, h0, by simp⟩)
    | ok b =>
      have hb : s.idx.read k = some b := readCell_ok.mp hr
      by_cases hc : clear ≤ b.toNat
      · exact .inr (.inl ⟨0, by omega, b, by simp [hc], hb, hc, by simp⟩)
      · have first : ∀ j, (∀ i < j, ∃ b', s.idx.read (k + 1 + i) = some b' ∧ b'.toNat < clear) →
            ∀ i < j + 1, ∃ b', s.idx.read (k + i) = some b' ∧ b'.toNat < clear := by
          intro j h i hi
          cases i with
          | zero => exact ⟨b, hb, by omega⟩
          | succ i => simpa [Nat.add_comm, Nat.add_left_comm] using h i (by omega)
        simp only [hc, if_false]
        rcases ih (k + 1) with ⟨ids, e, hl, h⟩ | ⟨j, hj, b', e, hj', hb', h⟩ | ⟨j, hj, e, hj', h⟩
        · refine .inl ⟨b :: ids, by rw [e], by simp [hl], ?_⟩
          intro j hj
          cases j with
          | zero => exact ⟨hb, by simp; omega⟩
          | succ j =>
            have := h j (by simpa using hj)
            rw [show k + (j + 1) = k + 1 + j by omega]
            simpa using this
        · refine .inr (.inl ⟨j + 1, by omega, b', ?_, ?_, hb', first j h⟩)
          · rw [e]; simp only []; congr 1; omega
          · rw [show k + (j + 1) = k + 1 + j by omega]; exact hj'
        · refine .inr (.inr ⟨j + 1, by omega, ?_, ?_, first j h⟩)
          · rw [e]; simp only []; congr 2; omega
          · rw [show k + (j + 1) = k + 1 + j by omega]; exact hj'

/-- Everything the run phase can do. -/
theorem encodeRun_cases (m : Nat) (bytes : List Byte) (s : State) :
    ((∀ j < bytes.length, s.sink.answerAt j = .accept) ∧
      encodeRun m bytes s =
        .next (encodeComplete (encodeProgress m bytes.length (s.sink.after bytes bytes.length) s))) ∨
    (∃ j < bytes.length, (∀ i < j, s.sink.answerAt i = .accept) ∧ s.sink.answerAt j = .reject ∧
      encodeRun m bytes s =
        .next (raise .sinkFail (encByteCount (s.sink.offered + (j + 1)) j)
          (encodeProgress m j (s.sink.after (bytes.take j) (j + 1)) s))) ∨
    (∃ j < bytes.length, (∀ i < j, s.sink.answerAt i = .accept) ∧ s.sink.answerAt j = .silent ∧
      encodeRun m bytes s = .fault .sinkSilent) := by
  unfold encodeRun
  rcases Sink.offerAll_cases bytes 0 s.sink with ⟨h, e⟩ | ⟨j, hj, h, hr, e⟩ | ⟨j, hj, h, hr, e⟩
  · exact .inl ⟨h, by rw [e]⟩
  · refine .inr (.inl ⟨j, hj, h, hr, ?_⟩)
    rw [e, Nat.zero_add]
    rfl
  · exact .inr (.inr ⟨j, hj, h, hr, by rw [e]⟩)

/-- Everything ENCODE can do. -/
theorem execEncode_cases (scs : Nat) (hdr : Bool) (s : State) :
    (s.fail = true ∧ execEncode scs hdr s = .next (raise .failed 0 s)) ∨
    (s.fail = false ∧ s.maxPix < s.pixelCount ∧
      execEncode scs hdr s = .next (raise .size (BitVec.ofNat 32 s.pixelCount) s)) ∨
    (s.fail = false ∧ s.pixelCount ≤ s.maxPix ∧ 8 < scs ∧ execEncode scs hdr s = .next (raise .codeSize 0 s)) ∨
    (s.fail = false ∧ s.pixelCount ≤ s.maxPix ∧ scs ≤ 8 ∧ s.iv = false ∧
      execEncode scs hdr s = .next (raise .notValid 0 s)) ∨
    (s.fail = false ∧ s.pixelCount ≤ s.maxPix ∧ scs ≤ 8 ∧ s.iv = true ∧
      ((∃ f, indexScan s (clearCode (minCodeSize scs)) s.pixelCount 0 = .stop f ∧ execEncode scs hdr s = .fault f) ∨
       (∃ k, indexScan s (clearCode (minCodeSize scs)) s.pixelCount 0 = .outOfRange k ∧
         execEncode scs hdr s = .next (raise .indexRange (BitVec.ofNat 32 k) s)) ∨
       (∃ ids, indexScan s (clearCode (minCodeSize scs)) s.pixelCount 0 = .inRange ids ∧
         execEncode scs hdr s = encodeRun (minCodeSize scs) (imageData (minCodeSize scs) hdr ids) s))) := by
  unfold execEncode
  cases hf : s.fail with
  | true => exact .inl ⟨rfl, unlessFailed_of_fail hf⟩
  | false =>
    rw [unlessFailed_of_not hf]
    by_cases hn : s.maxPix < s.pixelCount
    · exact .inr (.inl ⟨rfl, hn, by rw [if_pos hn]⟩)
    · rw [if_neg hn]
      by_cases hc : Config.maxScs < scs
      · exact .inr (.inr (.inl ⟨rfl, by omega, hc, by rw [if_pos hc]⟩))
      · have hc' : scs ≤ 8 := Nat.not_lt.mp hc
        rw [if_neg hc]
        cases hi : s.iv with
        | false => exact .inr (.inr (.inr (.inl ⟨rfl, by omega, hc', rfl, rfl⟩)))
        | true =>
          refine .inr (.inr (.inr (.inr ⟨rfl, by omega, hc', rfl, ?_⟩)))
          rw [if_pos rfl]
          cases indexScan s (clearCode (minCodeSize scs)) s.pixelCount 0 with
          | stop f => exact .inl ⟨f, rfl, rfl⟩
          | outOfRange k => exact .inr (.inl ⟨k, rfl, rfl⟩)
          | inRange ids => exact .inr (.inr ⟨ids, rfl, rfl⟩)

/-- What holds at the start of the encoder's scan and is kept by a hit and by a miss holds at its end. -/
theorem lzwScan_induct {m : Nat} {P : Nat → Lzw → Prop} {cs : List Byte}
    (hit : ∀ c ∈ cs, ∀ ent z v, z.dict.lookup (ent, c.toNat) = some v → P ent z → P v z)
    (miss : ∀ c ∈ cs, ∀ ent z, z.dict.lookup (ent, c.toNat) = none → P ent z →
      P c.toNat (insertOrClear m ent c.toNat (outputCode m ent z)))
    {ent : Nat} {z : Lzw} (start : P ent z) : P (lzwScan m cs ent z).1 (lzwScan m cs ent z).2 := by
  induction cs generalizing ent z with
  | nil => exact start
  | cons c cs ih =>
    have hit' := fun d hd => hit d (List.mem_cons_of_mem c hd)
    have miss' := fun d hd => miss d (List.mem_cons_of_mem c hd)
    unfold lzwScan
    split
    · rename_i v hv
      exact ih hit' miss' (hit c List.mem_cons_self ent z v hv start)
    · rename_i hv
      exact ih hit' miss' (miss c List.mem_cons_self ent z hv start)

/-! ## A host access and a step -/

/-- A register access that is no bus error is 4 bytes wide and reaches the register at its offset. -/
theorem regAccess_some {offset width : Nat} {r : Reg} (h : regAccess offset width = some r) :
    width = 4 ∧ r = regAt offset := by
  unfold regAccess at h
  split at h
  · rename_i hc
    exact ⟨hc.1, (Option.some.inj h).symm⟩
  · cases h

/-- The only register whose write starts a command is CMD, at offset 0. -/
theorem regAccess_cmd {offset width : Nat} (h : regAccess offset width = some .cmd) : offset = 0 ∧ width = 4 := by
  unfold regAccess at h
  split at h
  · rename_i hc
    refine ⟨?_, hc.1⟩
    have hle := hc.2.2
    interval_cases offset <;> simp [regAt] at h ⊢
  · cases h

/-- Everything a host access that gives a next state can do. -/
theorem hostStep_next_cases {op : HostOp} {s t : State} (h : hostStep op s = .next t) :
    (∃ space offset width v, op = .read space offset width ∧ busRead space offset width s = .ok v ∧
      t = { s with reads := s.reads ++ [v] }) ∨
    (∃ w, op = cmdWrite w ∧ runCommand w s = .next t) ∨
    (∃ offset v, op = .write .reg offset 4 v ∧ t = writeReg (regAt offset) v s) ∨
    (∃ offset v, op = .write .pix offset 1 v ∧ offset < 3 * s.maxPix ∧ t = writeCell .pix offset (v.setWidth 8) s) ∨
    (∃ offset v, op = .write .idx offset 1 v ∧ offset < s.maxPix ∧ t = writeCell .idx offset (v.setWidth 8) s) ∨
    (∃ b, op = .sinkWrite b ∧ s.sink.answerAt 0 = .accept ∧ t = { s with sink := s.sink.after [b] 1 }) ∨
    (∃ b, op = .sinkWrite b ∧ s.sink.answerAt 0 = .reject ∧ t = { s with sink := s.sink.after [] 1 }) ∨
    (op = .powerOn ∧ t = powerOnReset s) ∨
    (∃ space offset width data, op = .write space offset width data ∧ t = s) := by
  cases op with
  | read space offset width =>
    left
    simp only [hostStep, hostRead] at h
    split at h
    · rename_i v hv
      cases h
      exact ⟨space, offset, width, v, rfl, hv, rfl⟩
    · cases h
  | write space offset width data =>
    simp only [hostStep, hostWrite] at h
    split at h
    · split at h
      · rename_i hr
        obtain ⟨rfl, rfl⟩ := regAccess_cmd hr
        exact .inr (.inl ⟨data, rfl, h⟩)
      · rename_i r hne hr
        cases h
        obtain ⟨rfl, rfl⟩ := regAccess_some hr
        exact .inr (.inr (.inl ⟨offset, data, rfl, rfl⟩))
      · cases h
        exact .inr (.inr (.inr (.inr (.inr (.inr (.inr (.inr ⟨_, _, _, _, rfl, rfl⟩)))))))
    all_goals
      split at h
      · rename_i hc
        cases h
        obtain ⟨rfl, hlt⟩ := of_decide_eq_true hc
        first
          | exact .inr (.inr (.inr (.inl ⟨offset, data, rfl, hlt, rfl⟩)))
          | exact .inr (.inr (.inr (.inr (.inl ⟨offset, data, rfl, hlt, rfl⟩))))
          | exact .inr (.inr (.inr (.inr (.inr (.inr (.inr (.inr ⟨_, _, _, _, rfl, rfl⟩)))))))
      · cases h
        exact .inr (.inr (.inr (.inr (.inr (.inr (.inr (.inr ⟨_, _, _, _, rfl, rfl⟩)))))))
  | sinkWrite b =>
    simp only [hostStep, hostSinkWrite] at h
    rcases Sink.offerAll_cases [b] 0 s.sink with ⟨ha, e⟩ | ⟨j, hj, -, hr, e⟩ | ⟨j, hj, -, hr, e⟩
    · rw [e] at h
      cases h
      exact .inr (.inr (.inr (.inr (.inr (.inl ⟨b, rfl, ha 0 (by simp), rfl⟩)))))
    · obtain rfl : j = 0 := by simpa using hj
      rw [e] at h
      cases h
      exact .inr (.inr (.inr (.inr (.inr (.inr (.inl ⟨b, rfl, hr, rfl⟩))))))
    · rw [e] at h
      cases h
  | powerOn =>
    cases h
    exact .inr (.inr (.inr (.inr (.inr (.inr (.inr (.inl ⟨rfl, rfl⟩)))))))

/-- Everything a step that gives a next state can do: nothing with the core idle, else the host's next access. -/
theorem step_next_cases {s t : State} (h : step s = .next t) :
    (s.host = [] ∧ t = s) ∨ ∃ op rest, s.host = op :: rest ∧ hostStep op { s with host := rest } = .next t := by
  unfold step at h
  split at h
  · rename_i hh
    cases h
    exact .inl ⟨hh, rfl⟩
  · rename_i op rest hh
    exact .inr ⟨op, rest, hh, h⟩

/-- A command word: an illegal one ends with ILLCMD, a legal one is its command. -/
theorem runCommand_cases (w : Word) (s : State) :
    (∃ i, decode w = .ok i ∧ runCommand w s = exec i s) ∨
    (∃ e, decode w = .error e ∧ runCommand w s = .next (raise .illCmd 0 s)) := by
  unfold runCommand
  cases decode w with
  | ok i => exact .inl ⟨i, rfl, rfl⟩
  | error e => exact .inr ⟨e, rfl, rfl⟩

end Sys2Proof.Machine
end

