-- ==== Sys2Proof/Laws/Lzw.lean ====
section
/-! SUPPORT. What the encoder's procedures change: the byte-moving ones leave the dictionary, freeEnt, nBits and clearFlag
alone; the width update and the insert leave the bits and bytes alone. -/

namespace Sys2Proof.Machine

/-- The part of the encoder's state the byte-moving procedures never touch. -/
def Lzw.table (z : Lzw) : List ((Nat × Nat) × Nat) × Nat × Nat × Bool := (z.dict, z.freeEnt, z.nBits, z.clearFlag)

@[simp] theorem flushPacket_table (z : Lzw) : (flushPacket z).table = z.table := by
  unfold flushPacket
  split <;> rfl

@[simp] theorem flushPacket_acc (z : Lzw) : (flushPacket z).acc = z.acc := by
  unfold flushPacket
  split <;> rfl

@[simp] theorem flushPacket_accBits (z : Lzw) : (flushPacket z).accBits = z.accBits := by
  unfold flushPacket
  split <;> rfl

/-- An emitted packet leaves an empty one. -/
@[simp] theorem flushPacket_pkt (z : Lzw) : (flushPacket z).pkt = [] := by
  unfold flushPacket
  split
  · rfl
  · rename_i h
    exact List.eq_nil_of_length_eq_zero (by omega)

@[simp] theorem charOut_table (b : Byte) (z : Lzw) : (charOut b z).table = z.table := by
  unfold charOut
  split
  · rw [flushPacket_table]; rfl
  · rfl

@[simp] theorem charOut_acc (b : Byte) (z : Lzw) : (charOut b z).acc = z.acc := by
  unfold charOut
  split
  · rw [flushPacket_acc]
  · rfl

@[simp] theorem charOut_accBits (b : Byte) (z : Lzw) : (charOut b z).accBits = z.accBits := by
  unfold charOut
  split
  · rw [flushPacket_accBits]
  · rfl

/-- Between byte appends the packet is shorter than a full sub-block (10_state R68). -/
theorem charOut_pkt_length (b : Byte) {z : Lzw} (h : z.pkt.length ≤ 253) : (charOut b z).pkt.length ≤ 253 := by
  unfold charOut Config.pktMax
  split
  · simp
  · simp only [List.length_append, List.length_singleton]
    omega

@[simp] theorem moveBytes_table (n : Nat) (z : Lzw) : (moveBytes n z).table = z.table := by
  induction n generalizing z with
  | zero => rfl
  | succ n ih =>
    rw [moveBytes, ih]
    exact charOut_table _ z

@[simp] theorem writeCode_table (code : Nat) (z : Lzw) : (writeCode code z).table = z.table := by
  rw [writeCode, moveBytes_table]
  rfl

@[simp] theorem finalFlush_table (z : Lzw) : (finalFlush z).table = z.table := by
  unfold finalFlush
  split
  · rw [flushPacket_table, charOut_table]
  · rw [flushPacket_table]

/-- The accumulator after `n` bytes have moved out. -/
theorem moveBytes_acc (n : Nat) (z : Lzw) :
    (moveBytes n z).acc = z.acc >>> (8 * n) ∧ (moveBytes n z).accBits = z.accBits - 8 * n := by
  induction n generalizing z with
  | zero => simp [moveBytes]
  | succ n ih =>
    rw [moveBytes]
    obtain ⟨ha, hb⟩ := ih { charOut (lowByte z.acc) z with acc := z.acc >>> 8, accBits := z.accBits - 8 }
    rw [ha, hb]
    refine ⟨?_, by simp only []; omega⟩
    rw [← Nat.shiftRight_add, Nat.mul_succ, Nat.add_comm]

theorem moveBytes_pkt_length (n : Nat) {z : Lzw} (h : z.pkt.length ≤ 253) : (moveBytes n z).pkt.length ≤ 253 := by
  induction n generalizing z with
  | zero => exact h
  | succ n ih =>
    rw [moveBytes]
    exact ih (charOut_pkt_length (lowByte z.acc) h)

/-- The width update is the only change OutputCode makes beside the bits and bytes, whatever the code. -/
theorem outputCode_table (m code : Nat) (z : Lzw) :
    (outputCode m code z).table = (updateWidth m (writeCode code z)).table := by
  unfold outputCode
  split
  · rw [finalFlush_table]
  · rfl

end Sys2Proof.Machine
end

