-- ==== Sys2Proof/Laws/Palette.lean ====
section
/-! SUPPORT. First-seen order: its members, its distinctness, and a frame of distinct colors. -/

namespace Sys2Proof.Spec

theorem mem_firstSeen {cs : List Rgb} {c : Rgb} : c ∈ firstSeen cs ↔ c ∈ cs := by
  induction cs with
  | nil => simp [firstSeen]
  | cons d cs ih =>
    simp only [firstSeen, List.mem_cons, List.mem_filter, ih, decide_eq_true_eq]
    by_cases h : c = d <;> simp [h]

theorem firstSeen_nodup (cs : List Rgb) : (firstSeen cs).Nodup := by
  induction cs with
  | nil => simp [firstSeen]
  | cons d cs ih =>
    simp only [firstSeen, List.nodup_cons, List.mem_filter]
    exact ⟨by simp, ih.filter _⟩

/-- Distinct colors stand in the order they come. -/
theorem firstSeen_of_nodup {cs : List Rgb} (h : cs.Nodup) : firstSeen cs = cs := by
  induction cs with
  | nil => rfl
  | cons d cs ih =>
    obtain ⟨hd, hn⟩ := List.nodup_cons.mp h
    rw [firstSeen, ih hn, List.filter_eq_self.mpr]
    intro c hc
    simp only [decide_not, Bool.not_eq_eq_eq_not, Bool.not_true, decide_eq_false_iff_not]
    rintro rfl
    exact hd hc

end Sys2Proof.Spec

namespace Sys2Proof.Machine

/-- An array whose first n cells are all written reads by the function that wrote it. -/
theorem Memory.read_map_range (f : Nat → Byte) (n a : Nat) :
    Memory.read ((List.range n).map fun x => (x, f x)) a = if a < n then some (f a) else none := by
  have h : ∀ s, Memory.read ((List.range' s n).map fun x => (x, f x)) a =
      if s ≤ a ∧ a < s + n then some (f a) else none := by
    induction n with
    | zero => intro s; rw [if_neg (by omega)]; rfl
    | succ n ih =>
      intro s
      rw [List.range'_succ, List.map_cons, Memory.read_cons, ih]
      by_cases hs : s = a
      · simp [hs]
      · rw [if_neg hs]
        congr 1
        simp only [eq_iff_iff]
        omega
  simpa [List.range_eq_range'] using h 0

end Sys2Proof.Machine
end

