-- ==== Sys2Proof/Laws/PerInstr.lean ====
section
/-! SUPPORT. Statements per instruction, as syntax: the fields of every command's word (30_encoding R120, R122). -/

namespace Sys2Proof.Laws.EncodingFields

/-- The opcode of a command (30_encoding R122). -/
def opcode : Instr → BitVec 8
  | .reset => 0x01
  | .quant => 0x02
  | .findc => 0x03
  | .encode _ _ => 0x04

/-- The SCS and HDR fields of a command's word, 0 where the command has none (30_encoding R120). -/
def operands : Instr → Nat × Bool
  | .reset => (0, false)
  | .quant => (0, false)
  | .findc => (0, false)
  | .encode scs hdr => (scs, hdr)

/-- The word of a well-formed command has its opcode in bits 7:0, its operands in SCS and HDR, and reserved bits 0. -/
def Statement (i : Instr) : Prop :=
  i.wellFormed = true →
    wordOpc (encode i) = opcode i ∧ (wordScs (encode i), wordHdr (encode i)) = operands i ∧
      wordReserved (encode i) = 0

theorem reset : Statement .reset := by
  intro _
  decide

theorem quant : Statement .quant := by
  intro _
  decide

theorem findc : Statement .findc := by
  intro _
  decide

theorem encode (scs : Nat) (hdr : Bool) : Statement (.encode scs hdr) := by
  intro h
  have hs : scs ≤ 15 := of_decide_eq_true h
  interval_cases scs <;> cases hdr <;> decide

end Sys2Proof.Laws.EncodingFields
end

