-- ==== Sys2Proof/Tests/Slice0.lean ====
section
/-! SUPPORT. Tests whose expected results come from 95_test_vectors, and for every statement with hypotheses a state that
meets them. -/

namespace Sys2Proof.Tests

open Sys2Proof.Machine Sys2Proof.Spec

/-! ## Small states -/

/-- Cells at offsets 0, 1, 2, … holding these numbers. -/
def cells (l : List Nat) : Memory := l.zipIdx.map fun p => (p.2, BitVec.ofNat 8 p.1)

/-- Power-on with room for 8 pixels. -/
def base : State := { State.reset with maxPix := 8 }

/-- A sink that accepts n bytes, then answers a, then what the free value gives. -/
def sinkThen (n : Nat) (a : SinkAnswer) : Sink := ⟨[], List.replicate n .accept ++ [a], 0⟩

/-- The 2×2 frame red, red, blue, green of 95_test_vectors V1. -/
def frame22 : State :=
  { base with frameW := 2, frameH := 2, pix := cells [255, 0, 0, 255, 0, 0, 0, 0, 255, 0, 255, 0] }

/-- An N×1 frame of these pixels. -/
def frameOf (l : List Nat) (n : Nat) : State := { base with frameW := BitVec.ofNat 16 n, frameH := 1, pix := cells l }

/-- A table of the sentinel and these colors with a target. -/
def tableOf (l : List Nat) (mask n : Nat) (target : BitVec 24) : State :=
  { base with tv := true, nColors := BitVec.ofNat 9 n, ct := cells ([105, 105, 105] ++ l),
              um := cells (mask :: List.replicate 31 0), fcTarget := target }

/-- The index stream 1 1 2 3 of 95_test_vectors V2, with a sink. -/
def stream22 (k : Sink) : State :=
  { base with frameW := 2, frameH := 2, iv := true, idx := cells [1, 1, 2, 3], sink := k }

/-- The core after a SINK_FAIL (95_test_vectors V18, row 3). -/
def failedCore : State :=
  { base with frameW := 2, frameH := 2, fail := true, err := .sinkFail, errInfo := 3, encBytes := 3, encMcs := 2,
              sink := ⟨[2, 3, 0x4C], [], 4⟩ }

/-- A state with one access pending. -/
def pending (op : HostOp) (s : State) : State := { s with host := [op] }

/-- The next state of an outcome. -/
def nextOf : Host.Outcome State Fault Refusal → Option State
  | .next t => some t
  | .fault _ => none
  | .refused _ => none

/-! ## Well-formedness: the one check refuses (30_encoding R128: 0 ≤ scs ≤ 15) -/

theorem test_wellFormed_refuses_scs_16 : (Instr.encode 16 true).wellFormed = false := by decide

theorem test_wellFormed_takes_scs_15 : (Instr.encode 15 true).wellFormed = true := by decide

/-! ## Decoding, words written out from 30_encoding R120, R122 -/

/-- Bit 31 set on RESET is reserved (95_test_vectors V20). -/
theorem test_decode_reserved_bit_31 :
    decode 0b10000000000000000000000000000001#32 = .error .reservedBits := by decide

/-- ENCODE.GIF, SCS = 0b1000, HDR = 1 (95_test_vectors V20). -/
theorem test_decode_encode_gif : decode 0b00000000000000000001100000000100#32 = .ok (.encode 8 true) := by decide

theorem test_decodeTableWord_encode : decodeTableWord 32 0x00000204 = some (.encode 2 false) := by decide

/-! ## The commands -/

/-- 95_test_vectors P3: RESET in the failed state gives STATUS 0. -/
theorem test_reset_clears_failure :
    (nextOf (step (failedCore.withFetchWord 32 1))).map (readReg .status) = some 0x00000000 := by decide

/-- 42_control R231: RESET writes no array cell. -/
theorem test_reset_keeps_arrays : (nextOf (exec .reset frame22)).map State.pix = some frame22.pix := by decide

/-- 95_test_vectors V1. -/
theorem test_quant_2x2 : (nextOf (exec .quant frame22)).map (fun t => (t.idx, t.nColors, t.pix)) =
    some (cells [1, 1, 2, 3], 4, []) := by decide

/-- 95_test_vectors Q3: a dim-gray pixel gets a slot of its own. -/
theorem test_quant_sentinel_pixel :
    (nextOf (exec .quant (frameOf [0, 0, 0, 105, 105, 105, 105, 105, 105, 0, 0, 0] 4))).map
      (fun t => (t.idx, t.nColors)) = some (cells [1, 2, 2, 1], 3) := by decide

/-- 95_test_vectors F1: target (5,5,0) ties slots 1 and 2, the lower wins. -/
theorem test_findc_tie :
    (nextOf (exec .findc (tableOf [10, 0, 0, 0, 10, 0, 0, 0, 10] 15 4 0x050500))).map (readReg .fcResult) =
      some 0x00000001 := by decide

/-- 95_test_vectors V3: target (254,1,1) is nearest to slot 1. -/
theorem test_findc_nearest :
    (nextOf (exec .findc (tableOf [255, 0, 0] 3 2 0xFE0101))).map (readReg .fcResult) = some 0x00000001 := by decide

/-- 95_test_vectors V2: the bytes of ENCODE 2, 1. -/
theorem test_encode_2x2 :
    (nextOf (exec (.encode 2 true) (stream22 (sinkThen 6 .reject)))).map (fun t => (t.sink.history, t.encBytes)) =
      some ([0x02, 0x03, 0x4C, 0x34, 0x05, 0x00], 6) := by decide

/-- 95_test_vectors V18, row 3: the sink rejects the fourth byte. -/
theorem test_encode_sink_fail :
    (nextOf (exec (.encode 2 true) (stream22 (sinkThen 3 .reject)))).map
      (fun t => (t.sink.history, readReg .status t, t.errInfo)) = some ([0x02, 0x03, 0x4C], 0x00000084, 3) := by decide

/-! ## The procedures against the vectors -/

/-- 95_test_vectors V8: the KwKwK case at m = 4. -/
theorem test_imageData_run :
    imageData 4 true [0, 0, 0, 0, 0, 0] = [0x04, 0x04, 0x10, 0xC8, 0x19, 0x01, 0x00] := by decide

/-- 95_test_vectors V7: the empty stream at m = 8. -/
theorem test_imageData_empty : imageData 8 true [] = [0x08, 0x03, 0x00, 0x03, 0x02, 0x00] := by decide

/-! ## A state for the hypotheses of every statement -/

theorem witness_DecodeOfEncode : (Instr.encode 15 false).wellFormed = true := by decide

theorem witness_EncodeOfDecode : decode 0x00000F04 = .ok (.encode 15 false) := by decide

theorem witness_StepRunsDecodedInstruction :
    (pending (cmdWrite 0x00001804) frame22).host = .write .reg 0 4 0x00001804 :: [] ∧
      decode 0x00001804 = .ok (.encode 8 true) := by decide

/-- One word for each of the four ways to be illegal. -/
theorem witness_IllegalWordRaisesIllcmd :
    (pending (cmdWrite 0) base).host = .write .reg 0 4 0 :: [] ∧ (0x00000000#32).extractLsb' 0 8 = 0#8 ∧
      4#8 < (0x00000005#32).extractLsb' 0 8 ∧
      ((0x00002004#32).extractLsb' 0 8 = 4#8 ∧ (0x00002004#32).extractLsb' 13 19 ≠ 0#19) ∧
      ((0x00000102#32).extractLsb' 0 8 ≠ 4#8 ∧ (0x00000102#32).extractLsb' 8 24 ≠ 0#24) := by decide

theorem witness_IdleStepKeepsState : base.host = [] := by decide

theorem witness_StepTakesOneAccess : (nextOf (step (pending (cmdWrite 1) base))).isSome = true := by decide

theorem witness_PowerOnAccessResets : (pending .powerOn frame22).host = .powerOn :: [] := by decide

theorem witness_FailedStateRefusesCommands : failedCore.fail = true ∧ Instr.quant ≠ .reset := by decide

theorem witness_SizeErrorOfLargeFrames :
    (frameOf [] 9).fail = false ∧ (frameOf [] 9).maxPix < (frameOf [] 9).frameW.toNat * (frameOf [] 9).frameH.toNat := by
  decide

theorem witness_CodeSizeErrorOfLargeScs : base.fail = false ∧ base.pixelCount ≤ base.maxPix ∧ 8 < 9 := by decide

theorem witness_NotValidErrorWithoutStream :
    base.fail = false ∧ base.pixelCount ≤ base.maxPix ∧ 8 ≤ 8 ∧ base.iv = false := by decide

/-- 95_test_vectors V16: 0 1 4 2 at SCS = 2, where 4 = CLEAR. -/
theorem witness_IndexRangeErrorAtFirstBadIndex :
    let s := { stream22 (sinkThen 0 .reject) with idx := cells [0, 1, 4, 2] }
    s.fail = false ∧ s.pixelCount ≤ s.maxPix ∧ 2 ≤ 8 ∧ s.iv = true ∧ 2 < s.pixelCount ∧ s.idx.read 2 = some 4 ∧
      2 ^ max 2 2 ≤ (4#8).toNat ∧ s.idx.read 0 = some 0 ∧ s.idx.read 1 = some 1 := by decide

def colors22 : List Rgb := [⟨255, 0, 0⟩, ⟨255, 0, 0⟩, ⟨0, 0, 255⟩, ⟨0, 255, 0⟩]

theorem witness_QuantBuildsFirstSeenPalette :
    frame22.fail = false ∧ frame22.pixelCount ≤ frame22.maxPix ∧ frame22.frameIs colors22 ∧
      (firstSeen colors22).length ≤ 255 := by decide

/-- 255 distinct grays. -/
def grays : List Rgb := (List.range 255).map fun k => ⟨BitVec.ofNat 8 k, BitVec.ofNat 8 k, BitVec.ofNat 8 k⟩

/-- A 256×1 frame of the grays and, at pixel 255, one more color. -/
def frame256 : State :=
  { base with frameW := 256, frameH := 1, maxPix := 256,
              pix := (List.range 768).map fun a => (a, BitVec.ofNat 8 (a / 3)) }

theorem frame256_pixel {k : Nat} (h : k < 256) :
    readPixel k frame256 = .ok ⟨BitVec.ofNat 8 k, BitVec.ofNat 8 k, BitVec.ofNat 8 k⟩ := by
  refine readRgb_ok.mpr ?_
  simp only [frame256, State.array, Memory.read_map_range]
  simp only [show 3 * k < 768 by omega, show 3 * k + 1 < 768 by omega, show 3 * k + 2 < 768 by omega, if_true,
    show 3 * k / 3 = k by omega, show (3 * k + 1) / 3 = k by omega, show (3 * k + 2) / 3 = k by omega, and_self]

theorem gray_injective {j k : Nat} (hj : j < 256) (hk : k < 256) (h : BitVec.ofNat 8 j = BitVec.ofNat 8 k) : j = k := by
  have := congrArg BitVec.toNat h
  simpa [BitVec.toNat_ofNat, Nat.mod_eq_of_lt hj, Nat.mod_eq_of_lt hk] using this

theorem grays_nodup : grays.Nodup := by
  refine List.Nodup.map_on ?_ List.nodup_range
  intro j hj k hk h
  exact gray_injective (by have := List.mem_range.mp hj; omega) (by have := List.mem_range.mp hk; omega)
    (congrArg Rgb.r h)

theorem witness_QuantPaletteOverflow :
    frame256.fail = false ∧ frame256.pixelCount ≤ frame256.maxPix ∧ grays.length < frame256.pixelCount ∧
      (∀ k (h : k < grays.length), readPixel k frame256 = .ok grays[k]) ∧ (firstSeen grays).length = 255 ∧
      readPixel grays.length frame256 = .ok ⟨255, 255, 255⟩ ∧ ⟨255, 255, 255⟩ ∉ grays := by
  have hl : grays.length = 255 := by simp [grays]
  refine ⟨rfl, by decide, by rw [hl]; decide, ?_, ?_, ?_, ?_⟩
  · intro k h
    rw [frame256_pixel (by omega)]
    simp [grays]
  · rw [firstSeen_of_nodup grays_nodup, hl]
  · rw [hl]
    exact frame256_pixel (by omega)
  · intro h
    obtain ⟨k, hk, he⟩ := List.mem_map.mp h
    have hk' : k < 255 := List.mem_range.mp hk
    have := gray_injective (by omega) (by omega) ((congrArg Rgb.r he).trans (show (255#8) = BitVec.ofNat 8 255 from rfl))
    omega

theorem witness_QuantCornerFrames :
    (base.fail = false ∧ base.pixelCount ≤ base.maxPix ∧ base.frameW = 0) ∧
      (frameOf [7, 8, 9] 1).frameIs [⟨7, 8, 9⟩] ∧ (frameOf [7, 8, 9, 7, 8, 9] 2).frameIs (List.replicate 2 ⟨7, 8, 9⟩) ∧
      (frameOf [7, 8, 9, 7, 8, 9] 2).fail = false ∧
      (frameOf [7, 8, 9, 7, 8, 9] 2).pixelCount ≤ (frameOf [7, 8, 9, 7, 8, 9] 2).maxPix := by decide

theorem witness_QuantFrame : (nextOf (exec .quant frame22)).isSome = true := by decide

/-- The last channel of the last pixel is missing. -/
theorem witness_QuantStopsOnlyAtUnwrittenPixel :
    exec .quant (frameOf [1, 2, 3, 4, 5] 2) = .fault (.noValue .pix 5) := by rfl

theorem witness_QuantForgetsEarlierFrames :
    let s' := { frame22 with ct := cells [1, 2, 3], iv := true, idx := cells [9] }
    frame22.fail = false ∧ s'.fail = false ∧ frame22.pixelCount ≤ frame22.maxPix ∧ s'.frameW = frame22.frameW ∧
      s'.frameH = frame22.frameH ∧ s'.pix = frame22.pix ∧ s'.maxPix = frame22.maxPix ∧
      (nextOf (exec .quant frame22)).isSome = true := by decide

theorem witness_FindcWithoutTable :
    base.fail = false ∧ base.tv = false ∧ (nextOf (exec .reset base)).isSome = true ∧
      (nextOf (exec (.encode 2 true) (stream22 (sinkThen 3 .reject)))).map State.err = some .sinkFail := by decide

def table1 : State := tableOf [255, 0, 0] 3 2 0x696969

set_option maxRecDepth 4000 in
theorem table1_readable : table1.tableReadable := by
  refine ⟨by decide, fun i hi => ?_⟩
  have h : ∀ i < 256, readUsed i table1 = .ok (decide (i < 2)) := by decide
  rw [h i hi]
  by_cases h2 : i < 2
  · right
    refine ⟨by simp [h2], ?_⟩
    interval_cases i
    · exact ⟨⟨105, 105, 105⟩, by decide⟩
    · exact ⟨⟨255, 0, 0⟩, by decide⟩
  · left
    simp [h2]

theorem witness_FindcNearestLowestSlot : table1.fail = false ∧ table1.tv = true ∧ table1.tableReadable :=
  ⟨rfl, rfl, table1_readable⟩

theorem witness_FindcSentinelTargetGivesSlotZero :
    table1.fail = false ∧ table1.tv = true ∧ table1.tableReadable ∧ readSlot 0 table1 = .ok ⟨105, 105, 105⟩ ∧
      table1.fcTarget = 0x696969 :=
  ⟨rfl, rfl, table1_readable, by decide, rfl⟩

set_option maxRecDepth 4000 in
/-- The table's invariant with a table: NCOLORS = 2. -/
theorem witness_FindcCompletesUnderTableInv : table1.fail = false ∧ table1.TableInv where
  left := rfl
  right := {
    tvIffColors := by decide
    colorsLe := by decide
    usedIff := fun _ => by decide
    slotIff := fun _ => by
      intro off h
      have h6 : table1.ct = cells [105, 105, 105, 255, 0, 0] := rfl
      have hn : 3 * table1.nColors.toNat = 6 := rfl
      rw [h6, hn]
      by_cases hoff : off < 6
      · interval_cases off <;> rfl
      · simp only [cells, List.zipIdx_cons, List.zipIdx_nil, List.map_cons, List.map_nil, Memory.read_cons,
          Memory.read_nil, hoff, decide_false]
        repeat rw [if_neg (by omega)]
        rfl
    sentinel := fun _ => by decide }

theorem witness_FindcFrame : (nextOf (exec .findc table1)).isSome = true := by decide

theorem witness_EncodeCompletes :
    let s := stream22 (sinkThen 6 .reject)
    s.fail = false ∧ s.pixelCount ≤ s.maxPix ∧ 2 ≤ 8 ∧ s.iv = true ∧ s.streamIs [1, 1, 2, 3] ∧
      (∀ b ∈ ([1, 1, 2, 3] : List Byte), b.toNat < 2 ^ max 2 2) ∧
      ∀ j < (imageData (max 2 2) true [1, 1, 2, 3]).length, s.sink.answerAt j = .accept := by decide

theorem witness_EncodeSinkFailure :
    let s := stream22 (sinkThen 3 .reject)
    s.fail = false ∧ s.pixelCount ≤ s.maxPix ∧ 2 ≤ 8 ∧ s.iv = true ∧ s.streamIs [1, 1, 2, 3] ∧
      (∀ b ∈ ([1, 1, 2, 3] : List Byte), b.toNat < 2 ^ max 2 2) ∧
      3 < (imageData (max 2 2) true [1, 1, 2, 3]).length ∧
      (∀ j < 3, s.sink.answerAt j = .accept) ∧ s.sink.answerAt 3 = .reject := by decide

theorem witness_EncodeStuckOnSilentSink :
    let s := stream22 (sinkThen 5 .silent)
    s.fail = false ∧ s.pixelCount ≤ s.maxPix ∧ 2 ≤ 8 ∧ s.iv = true ∧ s.streamIs [1, 1, 2, 3] ∧
      (∀ b ∈ ([1, 1, 2, 3] : List Byte), b.toNat < 2 ^ max 2 2) ∧
      5 < (imageData (max 2 2) true [1, 1, 2, 3]).length ∧
      (∀ j < 5, s.sink.answerAt j = .accept) ∧ s.sink.answerAt 5 = .silent := by decide

theorem witness_EncodeFrame : (nextOf (exec (.encode 2 true) (stream22 (sinkThen 6 .reject)))).isSome = true := by
  decide

/-- Both stops happen: an index without a value, a silent sink. -/
theorem witness_EncodeStopsOnlyAtUnwrittenIndexOrSilence :
    exec (.encode 2 true) { stream22 (sinkThen 6 .reject) with idx := cells [1, 1, 2] } = .fault (.noValue .idx 3) ∧
      exec (.encode 2 true) (stream22 (sinkThen 0 .silent)) = .fault .sinkSilent :=
  ⟨by rfl, by rfl⟩

/-- A packet one byte short of full, an empty one and one that is not. -/
theorem witness_PacketsFlushAtTwoHundredFiftyFour :
    ({ lzwStart 2 true with pkt := List.replicate 253 0 }).pkt.length = 253 ∧ (lzwStart 2 true).pkt = [] ∧
      (lzwStart 2 true).pkt.length ≤ 252 ∧ ({ lzwStart 2 true with pkt := [7] }).pkt ≠ [] ∧
      ({ lzwStart 2 true with pkt := [7] }).pkt.length ≤ 254 :=
  ⟨List.length_replicate, by decide, by decide, by decide, by decide⟩

/-- Indices at the boundary CLEAR - 1: the hypotheses of EncoderStateStaysInRange, NoCodeIsTruncated,
ImageDataIsFramedCodeStream, ImageDataLength and DecodingImageDataGivesIndices. -/
theorem witness_indices_in_range :
    2 ≤ 2 ∧ 2 ≤ 8 ∧ (3#8).toNat < 2 ^ 2 ∧ ∀ b ∈ ([3, 2, 1, 0] : List Byte), b.toNat < 2 ^ 2 := by decide

theorem witness_NoCodeIsTruncated : (4, 3) ∈ codeStream 2 [3, 2, 1, 0] := List.mem_cons_self

/-- An inserted pair and one that is not. -/
theorem witness_HashTableIsExactMap :
    let entries : List ((Nat × Nat) × Nat) := [((1, 1), 6), ((1, 2), 7)]
    entries.length ≤ 4090 ∧ (entries.map Prod.fst).Nodup ∧ (∀ e ∈ entries, e.1.1 < 4096 ∧ e.1.2 < 256) ∧ 1 < 4096 ∧
      2 < 256 ∧ entries.lookup (1, 2) = some 7 ∧ entries.lookup (2, 2) = none := by decide

/-- At the last offset, at a reserved one, and a write to a register. -/
theorem witness_RegisterAccessByOffset :
    0x3C % 4 = 0 ∧ 0x3C ≤ 0x3C ∧ (pending (.read .reg 0x3C 4) base).host = .read .reg 0x3C 4 :: [] ∧
      0x34 % 4 = 0 ∧ (nextOf (step (pending (.read .reg 0x34 4) failedCore))).map State.reads = some [0] ∧
      (pending (.write .reg 0x18 4 5) base).host = .write .reg 0x18 4 5 :: [] ∧ 0x18 ≠ 0 := by decide

/-- At each boundary: beyond 0x3C, the first offset past each array, a write to a read-only register and to CT. -/
theorem witness_BusErrorsHaveNoEffect :
    (pending (.read .reg 0x40 4) base).host = .read .reg 0x40 4 :: [] ∧ 0x3C < 0x40 ∧
      (pending (.read .pix 24 1) base).host = .read .pix 24 1 :: [] ∧ 3 * base.maxPix ≤ 24 ∧
      (pending (.read .idx 8 1) base).host = .read .idx 8 1 :: [] ∧ base.maxPix ≤ 8 ∧
      (pending (.read .ct 768 1) base).host = .read .ct 768 1 :: [] ∧
      (pending (.read .um 32 1) base).host = .read .um 32 1 :: [] ∧
      (pending (.write .reg 0x04 4 5) base).host = .write .reg 0x04 4 5 :: [] ∧
      (0x04 ≠ 0x00 ∧ 0x04 ≠ 0x0C ∧ 0x04 ≠ 0x10 ∧ 0x04 ≠ 0x18) ∧
      (pending (.write .ct 0 1 5) base).host = .write .ct 0 1 5 :: [] := by decide

theorem witness_HostArrayAccesses :
    (pending (.write .idx 7 1 5) base).host = .write .idx 7 1 5 :: [] ∧ 7 < base.maxPix ∧
      (pending (.write .pix 23 1 5) base).host = .write .pix 23 1 5 :: [] ∧ 23 < 3 * base.maxPix ∧
      (pending (.read .pix 0 1) frame22).host = .read .pix 0 1 :: [] ∧
      (nextOf (step (pending (.read .pix 0 1) frame22))).isSome = true := by decide

theorem witness_HostReadOfCell :
    (pending (.read .pix 0 1) frame22).host = .read .pix 0 1 :: [] ∧ Space.pix ≠ .reg ∧
      0 < frame22.spaceSize .pix ∧ (frame22.array .pix).read 0 = some 255 ∧ (frame22.array .pix).read 12 = none ∧
      12 < frame22.spaceSize .pix := by decide

/-- One state for each answer of the sink. -/
theorem witness_HostSinkWriteAppends :
    let s (a : SinkAnswer) := pending (.sinkWrite 0x3B) { failedCore with sink := sinkThen 0 a }
    (s .accept).host = .sinkWrite 0x3B :: [] ∧ (s .accept).sink.answerAt 0 = .accept ∧
      (s .reject).host = .sinkWrite 0x3B :: [] ∧ (s .reject).sink.answerAt 0 = .reject ∧
      (s .silent).host = .sinkWrite 0x3B :: [] ∧ (s .silent).sink.answerAt 0 = .silent := by decide

/-- Each flag rises and falls: QUANT completes, ENCODE completes, RESET. -/
theorem witness_OnlyNamedEventsWriteFlags :
    frame22.tv = false ∧ frame22.iv = false ∧
      (nextOf (step (pending (cmdWrite 2) frame22))).map (fun t => (t.tv, t.iv)) = some (true, true) ∧
      (nextOf (step (pending (cmdWrite 0x00001204) (stream22 (sinkThen 6 .reject))))).map State.iv = some false ∧
      (nextOf (step (pending (cmdWrite 0x00001204) { stream22 (sinkThen 0 .reject) with tv := true }))).map
        (fun t => (t.tv, t.fail)) = some (false, true) ∧
      failedCore.fail = true ∧
      (nextOf (step (pending (cmdWrite 1) failedCore))).map State.fail = some false := by decide

theorem witness_SinkHistoryOnlyGrows :
    (nextOf (step (pending (.sinkWrite 0x3B) { base with sink := sinkThen 1 .reject }))).map
      (fun t => t.sink.history) = some [0x3B] := by decide

/-- The invariants hold in a state with a table, and a step from it goes on. -/
theorem witness_StepKeepsMemoryInv :
    table1.MemoryInv ∧ (nextOf (step (pending (cmdWrite 3) table1))).isSome = true where
  left := {
    pixWf := by decide, idxWf := by decide, ctWf := by decide, umWf := by decide
    pixBelow := by decide, idxBelow := by decide, ctBelow := by decide, umBelow := by decide }
  right := by decide

theorem witness_StepKeepsTableInv :
    table1.TableInv ∧ (nextOf (step table1)).isSome = true :=
  ⟨witness_FindcCompletesUnderTableInv.2, by decide⟩

theorem witness_StepKeepsFlagInv : failedCore.FlagInv ∧ (nextOf (step failedCore)).isSome = true where
  left := {
    failNoTable := by decide, failErr := by decide, sinkFailFails := by decide, overflowNoTable := by decide
    noInfo := by decide, fcResultLe := by decide, encMcsRange := by decide }
  right := by decide

end Sys2Proof.Tests
end

namespace Sys2Proof

/-- A command word is its upper part followed by its opcode. -/
theorem wordUpper_append_wordOpc (w : Word) : wordUpper w ++ wordOpc w = w :=
  (BitVec.extractLsb'_append_extractLsb'_eq_extractLsb' (show 8 = 0 + 8 from rfl)).trans BitVec.extractLsb'_eq_self

/-- A command word is its four fields, the reserved bits first (30_encoding R120, R121). -/
theorem word_eq_append_fields (w : Word) :
    wordReserved w ++ BitVec.ofBool (wordHdr w) ++ BitVec.ofNat 4 (wordScs w) ++ wordOpc w = w := by
  have hdr : BitVec.ofBool (wordHdr w) = w.extractLsb' 12 1 := by
    ext j hj
    obtain rfl : j = 0 := by omega
    simp [wordHdr]
  rw [hdr, wordScs, BitVec.ofNat_toNat, BitVec.setWidth_eq, wordReserved, wordOpc,
    BitVec.extractLsb'_append_extractLsb'_eq_extractLsb' (show 13 = 12 + 1 from rfl),
    BitVec.extractLsb'_append_extractLsb'_eq_extractLsb' (show 12 = 8 + 4 from rfl),
    BitVec.extractLsb'_append_extractLsb'_eq_extractLsb' (show 8 = 0 + 8 from rfl)]
  exact BitVec.extractLsb'_eq_self

/-- A command without operands decodes from the one word whose bits 31:8 are 0. -/
theorem decodePlain_ok {w : Word} {i j : Instr} (h : decodePlain w i = .ok j) : j = i ∧ w = 0#24 ++ wordOpc w := by
  unfold decodePlain at h
  split at h
  · rename_i hu
    cases h
    exact ⟨rfl, (wordUpper_append_wordOpc w).symm.trans (by rw [hu]; rfl)⟩
  · cases h

/-- A word that decodes is the word of the command it decodes to. -/
theorem encode_of_decode {w : Word} {i : Instr} (h : decode w = .ok i) : encode i = w := by
  unfold decode at h
  split_ifs at h with hopc hres hopc hopc hopc
  · cases h
    refine Eq.trans ?_ (word_eq_append_fields w)
    rw [hres, hopc]
    rfl
  all_goals
    obtain ⟨rfl, hw⟩ := decodePlain_ok h
    rw [hw, hopc]
    rfl

end Sys2Proof

/-! What a step can do, as one case analysis: every invariant of a step follows from `CommandEffect`, `AccessEffect` and
`step_keeps`. -/

namespace Sys2Proof.Machine

/-- The errors of a command without a state effect, each with its ERR_INFO and the failed state it needs
(60_exceptions R242 to R246). -/
inductive Rejection (s : State) : Err → Word → Prop
  | failed (hf : s.fail = true) : Rejection s .failed 0
  | size (hf : s.fail = false) (info : Word) : Rejection s .size info
  | codeSize (hf : s.fail = false) : Rejection s .codeSize 0
  | notValid (hf : s.fail = false) : Rejection s .notValid 0
  | indexRange (hf : s.fail = false) (info : Word) : Rejection s .indexRange info

/-- A rejected command writes ERR and ERR_INFO and nothing else. -/
theorem Rejection.raise_eq {s : State} {e : Err} {info : Word} (h : Rejection s e info) :
    raise e info s = { s with err := e, errInfo := info } := by
  cases h <;> rfl

/-- A next state of a command: what each way to end it leaves. -/
inductive CommandEffect (s : State) : Instr → State → Prop
  /-- A command ends with an error before any effect. -/
  | rejected {i : Instr} {e : Err} {info : Word} (hi : i ≠ .reset) (h : Rejection s e info) :
      CommandEffect s i (raise e info s)
  /-- RESET (42_control R230). -/
  | reset : CommandEffect s .reset (resetRegisters s)
  /-- QUANT completes (40_quantizer R156). -/
  | quantDone {q : Quantizer} (hf : s.fail = false)
      (scan : quantScan s s.pixelCount 0 (quantStart s.idx) = .done q) : CommandEffect s .quant (quantComplete q s)
  /-- QUANT meets a 257th color (60_exceptions R247). -/
  | quantOverflow (hf : s.fail = false) (info : Word) : CommandEffect s .quant (raise .paletteOverflow info s)
  /-- FINDC completes (40_quantizer R160, R161). -/
  | findc {r : BitVec 9} (hf : s.fail = false) (hr : r.toNat ≤ 0x100) :
      CommandEffect s .findc (complete { s with fcResult := r })
  /-- ENCODE completes (41_lzw_encoder R197). -/
  | encodeDone {scs : Nat} {hdr : Bool} (hf : s.fail = false) (hscs : scs ≤ 8) (bytes : List Byte) :
      CommandEffect s (.encode scs hdr)
        (encodeComplete (encodeProgress (minCodeSize scs) bytes.length (s.sink.after bytes bytes.length) s))
  /-- The sink rejects a byte of ENCODE (60_exceptions R248). -/
  | encodeSinkFail {scs : Nat} {hdr : Bool} (hf : s.fail = false) (hscs : scs ≤ 8) (accepted : List Byte) (n : Nat) :
      CommandEffect s (.encode scs hdr)
        (raise .sinkFail (encByteCount (s.sink.offered + (n + 1)) n)
          (encodeProgress (minCodeSize scs) n (s.sink.after accepted (n + 1)) s))

/-- The best slot of a FINDC is one of the 256. -/
theorem nearest_lt {s : State} {t : Rgb} {d best : Nat} (h : nearest s t 256 0 0 d = .ok best) : best < 256 := by
  obtain ⟨-, hb⟩ := nearest_ok_induct (P := fun i best _ => best = 0 ∨ best < i)
    (unused := fun i best _ _ h => by omega) (nearer := fun i _ _ _ _ _ _ _ => by omega)
    (farther := fun i best _ _ _ _ _ h => by omega) h (.inl rfl)
  omega

theorem execQuant_effect {s t : State} (h : execQuant s = .next t) : CommandEffect s .quant t := by
  rcases execQuant_cases s with ⟨hf, e⟩ | ⟨hf, -, e⟩ | ⟨hf, -, ⟨f, -, e⟩ | ⟨k, -, e⟩ | ⟨q, hq, e⟩⟩ <;>
    cases e.symm.trans h
  · exact .rejected nofun (.failed hf)
  · exact .rejected nofun (.size hf _)
  · exact .quantOverflow hf _
  · exact .quantDone hf hq

theorem execFindc_effect {s t : State} (h : execFindc s = .next t) : CommandEffect s .findc t := by
  rcases execFindc_cases s with ⟨hf, e⟩ | ⟨hf, -, e⟩ | ⟨hf, -, ⟨f, -, e⟩ | ⟨best, hb, e⟩⟩ <;>
    cases e.symm.trans h
  · exact .rejected nofun (.failed hf)
  · exact .findc hf (by decide)
  · have := nearest_lt hb
    exact .findc hf (by rw [slotResult, BitVec.toNat_ofNat]; omega)

theorem execEncode_effect {scs : Nat} {hdr : Bool} {s t : State} (h : execEncode scs hdr s = .next t) :
    CommandEffect s (.encode scs hdr) t := by
  rcases execEncode_cases scs hdr s with ⟨hf, e⟩ | ⟨hf, -, e⟩ | ⟨hf, -, -, e⟩ | ⟨hf, -, -, -, e⟩ |
    ⟨hf, -, hscs, -, ⟨f, -, e⟩ | ⟨k, -, e⟩ | ⟨ids, -, e⟩⟩ <;> rw [e] at h
  · cases h; exact .rejected nofun (.failed hf)
  · cases h; exact .rejected nofun (.size hf _)
  · cases h; exact .rejected nofun (.codeSize hf)
  · cases h; exact .rejected nofun (.notValid hf)
  · cases h
  · cases h; exact .rejected nofun (.indexRange hf _)
  · rcases encodeRun_cases (minCodeSize scs) (imageData (minCodeSize scs) hdr ids) s with
      ⟨-, e⟩ | ⟨n, -, -, -, e⟩ | ⟨n, -, -, -, e⟩ <;> cases e.symm.trans h
    · exact .encodeDone hf hscs _
    · exact .encodeSinkFail hf hscs _ n

/-- Everything a command that gives a next state can do. -/
theorem exec_effect {i : Instr} {s t : State} (h : exec i s = .next t) : CommandEffect s i t := by
  cases i with
  | reset => cases h; exact .reset
  | quant => exact execQuant_effect h
  | findc => exact execFindc_effect h
  | encode scs hdr => exact execEncode_effect h

/-- A next state of a host access. -/
inductive AccessEffect (s : State) : HostOp → State → Prop
  /-- A bus read, a bus error among them. -/
  | read (space : Space) (offset width : Nat) (v : Word) :
      AccessEffect s (.read space offset width) { s with reads := s.reads ++ [v] }
  /-- An illegal command word (60_exceptions R241). -/
  | illegal (w : Word) : AccessEffect s (cmdWrite w) (raise .illCmd 0 s)
  /-- A legal command word. -/
  | command {i : Instr} {t : State} (h : CommandEffect s i t) : AccessEffect s (cmdWrite (encode i)) t
  /-- A write to a register other than CMD. -/
  | register (r : Reg) (offset : Nat) (v : Word) : AccessEffect s (.write .reg offset 4 v) (writeReg r v s)
  /-- A byte written to PIX. -/
  | pix (offset : Nat) (v : Word) (b : Byte) : AccessEffect s (.write .pix offset 1 v) (writeCell .pix offset b s)
  /-- A byte written to IDX. -/
  | idx (offset : Nat) (v : Word) (b : Byte) : AccessEffect s (.write .idx offset 1 v) (writeCell .idx offset b s)
  /-- A byte of the host's own, answered by the sink. -/
  | sink (b : Byte) (accepted : List Byte) : AccessEffect s (.sinkWrite b) { s with sink := s.sink.after accepted 1 }
  /-- Power-on reset. -/
  | powerOn : AccessEffect s .powerOn (powerOnReset s)
  /-- A write that is a bus error (20_memory R96). -/
  | ignored (space : Space) (offset width : Nat) (v : Word) : AccessEffect s (.write space offset width v) s

/-- Everything a host access that gives a next state can do. -/
theorem hostStep_effect {op : HostOp} {s t : State} (h : hostStep op s = .next t) : AccessEffect s op t := by
  rcases hostStep_next_cases h with ⟨space, offset, width, v, rfl, -, rfl⟩ | ⟨w, rfl, hw⟩ | ⟨offset, v, rfl, rfl⟩ |
    ⟨offset, v, rfl, -, rfl⟩ | ⟨offset, v, rfl, -, rfl⟩ | ⟨b, rfl, -, rfl⟩ | ⟨b, rfl, -, rfl⟩ | ⟨rfl, rfl⟩ |
    ⟨space, offset, width, v, rfl, rfl⟩
  · exact .read space offset width v
  · rcases runCommand_cases w s with ⟨i, hi, e⟩ | ⟨-, -, e⟩ <;> rw [e] at hw
    · rw [← encode_of_decode hi]
      exact .command (exec_effect hw)
    · cases hw
      exact .illegal w
  · exact .register _ offset v
  · exact .pix offset v _
  · exact .idx offset v _
  · exact .sink b [b]
  · exact .sink b []
  · exact .powerOn
  · exact .ignored space offset width v

/-- With an access pending a step is that access, on the state with the access taken off. -/
theorem step_of_host {s : State} {op : HostOp} {rest : List HostOp} (h : s.host = op :: rest) :
    step s = hostStep op { s with host := rest } := by
  unfold step
  rw [h]

/-- What does not depend on the pending accesses and is kept by every host access is kept by every step. -/
theorem step_keeps {P : State → Prop} (host : ∀ s l, P s → P { s with host := l })
    (access : ∀ s op t, AccessEffect s op t → P s → P t) {s t : State} (hs : P s) (h : step s = .next t) : P t := by
  rcases step_next_cases h with ⟨-, rfl⟩ | ⟨op, rest, -, hop⟩
  · exact hs
  · exact access _ op t (hostStep_effect hop) (host s rest hs)

end Sys2Proof.Machine

/-! The table's invariant: the arrays and counters QUANT builds, pixel by pixel. -/

namespace Sys2Proof.Machine

/-- The mask says that exactly the slots below `n` are in use (40_quantizer R155). -/
def Memory.MaskBelow (um : Memory) (n : Nat) : Prop :=
  ∀ i < 256, ∃ b, um.read (i / 8) = some b ∧ b.getLsbD (i % 8) = decide (i < n)

/-- The palette has a color in exactly the slots below `n`, the sentinel in slot 0 (40_quantizer R151, R155). -/
structure Memory.PaletteBelow (ct : Memory) (n : Nat) : Prop where
  slots : ∀ off < 768, (ct.read off).isSome = decide (off < 3 * n)
  red : ct.read 0 = some Config.sentinel.r
  green : ct.read 1 = some Config.sentinel.g
  blue : ct.read 2 = some Config.sentinel.b

theorem initialTable_paletteBelow : initialTable.PaletteBelow 1 where
  slots off _ := by
    rw [initialTable, read_writeSlot, Memory.read_nil]
    split_ifs <;> simp <;> omega
  red := rfl
  green := rfl
  blue := rfl

/-- A color in the next free slot. -/
theorem Memory.PaletteBelow.writeSlot {ct : Memory} {n : Nat} (c : Rgb) (hn : 1 ≤ n) (h : ct.PaletteBelow n) :
    (writeSlot ct n c).PaletteBelow (n + 1) where
  slots off hoff := by
    rw [read_writeSlot]
    split_ifs
    · simp; omega
    · simp; omega
    · simp; omega
    · rw [h.slots off hoff]
      simp only [decide_eq_decide]
      omega
  red := by rw [read_writeSlot, if_neg (by omega), if_neg (by omega), if_neg (by omega), h.red]
  green := by rw [read_writeSlot, if_neg (by omega), if_neg (by omega), if_neg (by omega), h.green]
  blue := by rw [read_writeSlot, if_neg (by omega), if_neg (by omega), if_neg (by omega), h.blue]

theorem initialMask_maskBelow : initialMask.MaskBelow 1 := by
  intro i hi
  refine ⟨_, (Memory.read_map_range _ 32 (i / 8)).trans (if_pos (by omega)), ?_⟩
  split_ifs with hq
  · have : i < 8 := by omega
    interval_cases i <;> rfl
  · simp
    omega

/-- A byte with only bit `j` set. -/
theorem getLsbD_ofNat_shiftLeft_one {j t : Nat} (ht : t < 8) :
    (BitVec.ofNat 8 (1 <<< j)).getLsbD t = decide (t = j) := by
  rw [BitVec.getLsbD_ofNat, Nat.one_shiftLeft, Nat.testBit_two_pow, decide_eq_true ht, Bool.true_and]
  simp only [eq_comm]

/-- The next free slot comes into use. -/
theorem Memory.MaskBelow.setUsed {um : Memory} {n : Nat} (h : um.MaskBelow n) :
    (setUsed um n).MaskBelow (n + 1) := by
  intro i hi
  obtain ⟨b, hb, hbit⟩ := h i hi
  rw [Machine.setUsed, Memory.read_write]
  split
  · rename_i hq
    refine ⟨_, rfl, ?_⟩
    rw [hq, hb, Option.getD_some, BitVec.getLsbD_or, hbit, getLsbD_ofNat_shiftLeft_one (by omega), ← Bool.decide_or,
      decide_eq_decide]
    omega
  · refine ⟨b, hb, ?_⟩
    rw [hbit, decide_eq_decide]
    omega

/-- What QUANT's run keeps from pixel to pixel: the palette and the mask are those of the slots below the free-slot
counter (40_quantizer R151 to R155). -/
structure Quantizer.TableOk (q : Quantizer) : Prop where
  freeGe : 1 ≤ q.nextFree
  freeLe : q.nextFree ≤ 256
  mask : q.um.MaskBelow q.nextFree
  palette : q.ct.PaletteBelow q.nextFree

theorem quantStart_tableOk (idx : Memory) : (quantStart idx).TableOk where
  freeGe := le_rfl
  freeLe := show 1 ≤ 256 by decide
  mask := initialMask_maskBelow
  palette := initialTable_paletteBelow

theorem quantPixel_tableOk {k : Nat} {c : Rgb} {q q' : Quantizer} (h : q.TableOk) (hq : quantPixel k c q = some q') :
    q'.TableOk := by
  obtain ⟨hge, hle, hmask, hpal⟩ := h
  rcases quantPixel_cases k c q with ⟨_, -, e⟩ | ⟨-, -, e⟩ | ⟨-, hne, e⟩ <;> cases e.symm.trans hq
  · exact ⟨hge, hle, hmask, hpal⟩
  · have hlt : q.nextFree < 256 := by omega
    exact ⟨Nat.le_add_left 1 _, hlt, hmask.setUsed, hpal.writeSlot c hge⟩

theorem quantScan_tableOk {s : State} {n : Nat} {idx : Memory} {q : Quantizer}
    (h : quantScan s n 0 (quantStart idx) = .done q) : q.TableOk :=
  quantScan_done_induct (P := fun _ q => q.TableOk) (fun _ _ _ _ _ hq h => quantPixel_tableOk h hq) h
    (quantStart_tableOk idx)

/-- A completed QUANT leaves a table that meets the invariant. -/
theorem quantComplete_tableInv {q : Quantizer} (s : State) (h : q.TableOk) : (quantComplete q s).TableInv := by
  obtain ⟨hge, hle, hmask, hpal⟩ := h
  have hn : (quantComplete q s).nColors.toNat = q.nextFree := by
    rw [quantComplete_nColors, BitVec.toNat_ofNat]
    omega
  refine { tvIffColors := ?_, colorsLe := by rw [hn]; exact hle, usedIff := ?_, slotIff := ?_, sentinel := ?_ }
  · simp only [quantComplete_tv, true_iff]
    intro h0
    rw [h0] at hn
    exact absurd hn (by simp; omega)
  · intro _ i hi
    rw [hn]
    exact readUsed_ok.mpr (hmask i hi)
  · intro _ off hoff
    rw [hn]
    exact hpal.slots off hoff
  · intro _
    exact readRgb_ok.mpr ⟨hpal.red, hpal.green, hpal.blue⟩

/-- The table's invariant speaks of TV, NCOLORS, CT and UM alone. -/
theorem State.TableInv.congr {s t : State} (h : s.TableInv) (htv : t.tv = s.tv) (hn : t.nColors = s.nColors)
    (hct : t.ct = s.ct) (hum : t.um = s.um) : t.TableInv where
  tvIffColors := by rw [htv, hn]; exact h.tvIffColors
  colorsLe := by rw [hn]; exact h.colorsLe
  usedIff := by rw [htv, hn]; intro ht i hi; rw [readUsed_congr hum]; exact h.usedIff ht i hi
  slotIff := by rw [htv, hn, hct]; exact h.slotIff
  sentinel := by
    rw [htv, readSlot, readRgb_congr (t := s) (by simpa [State.array] using hct)]
    exact h.sentinel

/-- Without a table and without colors the invariant holds. -/
theorem State.TableInv.of_no_table {s : State} (htv : s.tv = false) (hn : s.nColors = 0) : s.TableInv where
  tvIffColors := by simp [htv, hn]
  colorsLe := by simp [hn]
  usedIff := by simp [htv]
  slotIff := by simp [htv]
  sentinel := by simp [htv]

theorem CommandEffect.keeps_tableInv {s t : State} {i : Instr} (h : CommandEffect s i t) (hs : s.TableInv) :
    t.TableInv := by
  cases h with
  | rejected _ h => rw [h.raise_eq]; exact hs.congr rfl rfl rfl rfl
  | reset => exact .of_no_table rfl rfl
  | quantDone _ scan => exact quantComplete_tableInv s (quantScan_tableOk scan)
  | quantOverflow => exact .of_no_table rfl rfl
  | findc => exact hs.congr rfl rfl rfl rfl
  | encodeDone => exact hs.congr rfl rfl rfl rfl
  | encodeSinkFail => exact .of_no_table rfl rfl

/-- A register write changes no flag, no result register and no array. -/
theorem writeReg_eq (r : Reg) (v : Word) (s : State) :
    writeReg r v s = { s with
      frameW := (writeReg r v s).frameW, frameH := (writeReg r v s).frameH
      fcTarget := (writeReg r v s).fcTarget } := by
  cases r <;> rfl

theorem AccessEffect.keeps_tableInv {s t : State} {op : HostOp} (h : AccessEffect s op t) (hs : s.TableInv) :
    t.TableInv := by
  cases h with
  | read => exact hs.congr rfl rfl rfl rfl
  | illegal => exact hs.congr rfl rfl rfl rfl
  | command h => exact h.keeps_tableInv hs
  | register r _ v => rw [writeReg_eq]; exact hs.congr rfl rfl rfl rfl
  | pix => exact hs.congr rfl rfl rfl rfl
  | idx => exact hs.congr rfl rfl rfl rfl
  | sink => exact hs.congr rfl rfl rfl rfl
  | powerOn => exact .of_no_table rfl rfl
  | ignored => exact hs

/-- Settles O53: QUANT's scan builds the table slot by slot, and no other access writes CT, UM, TV or NCOLORS but to
leave no table. -/
theorem stepKeepsTableInv : Obligations.StepKeepsTableInv := by
  intro s t hs h
  exact step_keeps (fun _ _ h => h.congr rfl rfl rfl rfl) (fun _ _ _ h hs => h.keeps_tableInv hs) hs h

end Sys2Proof.Machine

/-! The flags' invariant. -/

namespace Sys2Proof.Machine

/-- The invariant of the flags speaks of TV, FAIL, ERR, ERR_INFO, FC_RESULT, ENC_BYTES and ENC_MCS alone. -/
theorem State.FlagInv.congr {s t : State} (h : s.FlagInv) (htv : t.tv = s.tv) (hf : t.fail = s.fail)
    (he : t.err = s.err) (hi : t.errInfo = s.errInfo) (hr : t.fcResult = s.fcResult) (hb : t.encBytes = s.encBytes)
    (hm : t.encMcs = s.encMcs) : t.FlagInv where
  failNoTable := by rw [htv, hf]; exact h.failNoTable
  failErr := by rw [hf, he]; exact h.failErr
  sinkFailFails := by rw [hf, he, hi, hb]; exact h.sinkFailFails
  overflowNoTable := by rw [htv, he]; exact h.overflowNoTable
  noInfo := by rw [he, hi]; exact h.noInfo
  fcResultLe := by rw [hr]; exact h.fcResultLe
  encMcsRange := by rw [hm]; exact h.encMcsRange

/-- minCodeSize of a legal start code size is from 2 to 8 (41_lzw_encoder R182). -/
theorem minCodeSize_range {scs : Nat} (h : scs ≤ 8) : 2 ≤ minCodeSize scs ∧ minCodeSize scs ≤ 8 := by
  unfold minCodeSize Config.minMcs
  omega

theorem encMcs_range {scs : Nat} (h : scs ≤ 8) :
    2 ≤ (BitVec.ofNat 4 (minCodeSize scs)).toNat ∧ (BitVec.ofNat 4 (minCodeSize scs)).toNat ≤ 8 := by
  have := minCodeSize_range h
  rw [BitVec.toNat_ofNat]
  omega

/-- An error without a state effect keeps the invariant, where it may stand beside FAIL = 1 and has the info it needs. -/
theorem State.FlagInv.setErr {s : State} {e : Err} {info : Word} (h : s.FlagInv)
    (hf : s.fail = true → e = .failed ∨ e = .illCmd) (hs : e ≠ .sinkFail) (ho : e ≠ .paletteOverflow)
    (hi : info = 0 ∨ e = .size ∨ e = .indexRange) : { s with err := e, errInfo := info }.FlagInv where
  failNoTable := h.failNoTable
  failErr hfail := .inr (hf hfail)
  sinkFailFails he := absurd he hs
  overflowNoTable he := absurd he ho
  noInfo he := by rcases hi with rfl | rfl | rfl <;> simp_all
  fcResultLe := h.fcResultLe
  encMcsRange := h.encMcsRange

theorem Rejection.keeps_flagInv {s : State} {e : Err} {info : Word} (h : Rejection s e info) (hs : s.FlagInv) :
    (raise e info s).FlagInv := by
  rw [h.raise_eq]
  cases h with
  | failed => exact hs.setErr (fun _ => .inl rfl) nofun nofun (.inl rfl)
  | size hf => exact hs.setErr (by simp [hf]) nofun nofun (.inr (.inl rfl))
  | codeSize hf => exact hs.setErr (by simp [hf]) nofun nofun (.inl rfl)
  | notValid hf => exact hs.setErr (by simp [hf]) nofun nofun (.inl rfl)
  | indexRange hf => exact hs.setErr (by simp [hf]) nofun nofun (.inr (.inr rfl))

/-- A command that completes outside the failed state. -/
theorem State.FlagInv.of_complete {s : State} (hf : s.fail = false) (he : s.err = .noError) (hi : s.errInfo = 0)
    (hr : s.fcResult.toNat ≤ 0x100) (hm : s.encMcs = 0 ∨ (2 ≤ s.encMcs.toNat ∧ s.encMcs.toNat ≤ 8)) : s.FlagInv where
  failNoTable h := by simp [hf] at h
  failErr h := by simp [hf] at h
  sinkFailFails h := by simp [he] at h
  overflowNoTable h := by simp [he] at h
  noInfo _ := hi
  fcResultLe := hr
  encMcsRange := hm

theorem CommandEffect.keeps_flagInv {s t : State} {i : Instr} (h : CommandEffect s i t) (hs : s.FlagInv) :
    t.FlagInv := by
  cases h with
  | rejected _ h => exact h.keeps_flagInv hs
  | reset => exact .of_complete rfl rfl rfl le_rfl (.inl rfl)
  | quantDone hf => exact .of_complete hf rfl rfl hs.fcResultLe hs.encMcsRange
  | quantOverflow hf =>
    exact { failNoTable := fun _ => rfl, failErr := fun h => absurd (hf.symm.trans h) nofun, sinkFailFails := nofun,
            overflowNoTable := fun _ => rfl, noInfo := by simp, fcResultLe := hs.fcResultLe,
            encMcsRange := hs.encMcsRange }
  | findc hf hr => exact .of_complete hf rfl rfl hr hs.encMcsRange
  | encodeDone hf hscs => exact .of_complete hf rfl rfl hs.fcResultLe (.inr (encMcs_range hscs))
  | encodeSinkFail hf hscs =>
    exact { failNoTable := fun _ => rfl, failErr := fun _ => .inl rfl, sinkFailFails := fun _ => ⟨rfl, rfl⟩,
            overflowNoTable := nofun, noInfo := by simp, fcResultLe := hs.fcResultLe,
            encMcsRange := .inr (encMcs_range hscs) }

theorem AccessEffect.keeps_flagInv {s t : State} {op : HostOp} (h : AccessEffect s op t) (hs : s.FlagInv) :
    t.FlagInv := by
  cases h with
  | read => exact hs.congr rfl rfl rfl rfl rfl rfl rfl
  | illegal => exact hs.setErr (fun _ => .inr rfl) nofun nofun (.inl rfl)
  | command h => exact h.keeps_flagInv hs
  | register r _ v => rw [writeReg_eq]; exact hs.congr rfl rfl rfl rfl rfl rfl rfl
  | pix => exact hs.congr rfl rfl rfl rfl rfl rfl rfl
  | idx => exact hs.congr rfl rfl rfl rfl rfl rfl rfl
  | sink => exact hs.congr rfl rfl rfl rfl rfl rfl rfl
  | powerOn => exact .of_complete rfl rfl rfl le_rfl (.inl rfl)
  | ignored => exact hs

/-- Settles O54: each end of a command and power-on write ERR together with the flags and results that go with it, and
no other access writes one of them. -/
theorem stepKeepsFlagInv : Obligations.StepKeepsFlagInv := by
  intro s t hs h
  exact step_keeps (fun _ _ h => h.congr rfl rfl rfl rfl rfl rfl rfl) (fun _ _ _ h hs => h.keeps_flagInv hs) hs h

/-- Settles O55: without a table, a failure or a cell the three invariants say nothing that a reset value breaks. -/
theorem resetMeetsInvariants : Obligations.ResetMeetsInvariants :=
  ⟨⟨rfl, rfl, rfl, rfl, rfl, rfl, rfl, rfl⟩, .of_no_table rfl rfl, .of_complete rfl rfl rfl le_rfl (.inl rfl)⟩

end Sys2Proof.Machine

/-! Which accesses write the flags and the sink's history. -/

namespace Sys2Proof.Machine

/-- What an access can leave in TV, IV and FAIL, with the ERR it leaves: the events of 10_state R45 to R47 and R77 and
20_memory R95. -/
inductive FlagEffect (s : State) : HostOp → Err → Bool → Bool → Bool → Prop
  | kept (op : HostOp) (e : Err) : FlagEffect s op e s.tv s.iv s.fail
  | quantDone : FlagEffect s (cmdWrite (encode .quant)) .noError true true s.fail
  | quantOverflow : FlagEffect s (cmdWrite (encode .quant)) .paletteOverflow false false s.fail
  | encodeDone (scs : Nat) (hdr : Bool) :
      FlagEffect s (cmdWrite (encode (.encode scs hdr))) .noError s.tv false s.fail
  | encodeSinkFail (scs : Nat) (hdr : Bool) :
      FlagEffect s (cmdWrite (encode (.encode scs hdr))) .sinkFail false false true
  | reset (e : Err) : FlagEffect s (cmdWrite (encode .reset)) e false false false
  | powerOn (e : Err) : FlagEffect s .powerOn e false false false
  | idxWrite (offset : Nat) (v : Word) (e : Err) : FlagEffect s (.write .idx offset 1 v) e s.tv true s.fail

theorem CommandEffect.flags {s t : State} {i : Instr} (h : CommandEffect s i t) :
    FlagEffect s (cmdWrite (encode i)) t.err t.tv t.iv t.fail := by
  cases h with
  | rejected _ h => rw [h.raise_eq]; exact .kept _ _
  | reset => exact .reset _
  | quantDone => exact .quantDone
  | quantOverflow => exact .quantOverflow
  | findc => exact .kept _ _
  | encodeDone => exact .encodeDone _ _
  | encodeSinkFail => exact .encodeSinkFail _ _

theorem AccessEffect.flags {s t : State} {op : HostOp} (h : AccessEffect s op t) :
    FlagEffect s op t.err t.tv t.iv t.fail := by
  cases h with
  | read => exact .kept _ _
  | illegal => exact .kept _ _
  | command h => exact h.flags
  | register r _ v => rw [writeReg_eq]; exact .kept _ _
  | pix => exact .kept _ _
  | idx offset v => exact .idxWrite offset v _
  | sink => exact .kept _ _
  | powerOn => exact .powerOn _
  | ignored => exact .kept _ _

/-- Settles O50: each event that writes a flag is one the clauses name. -/
theorem onlyNamedEventsWriteFlags : Obligations.OnlyNamedEventsWriteFlags := by
  intro s t op rest hop h
  rw [step_of_host hop] at h
  have hflags := (hostStep_effect h).flags
  generalize t.err = e, t.tv = tv, t.iv = iv, t.fail = fail at hflags ⊢
  cases hflags with
  | kept => simp_all
  | quantDone => simp [cmdWrite, encode]
  | quantOverflow => simp [cmdWrite, encode]
  | encodeDone scs hdr =>
    exact ⟨by simp_all, by simp_all, nofun, fun _ _ => .inr (.inl ⟨scs, hdr, rfl, .inl rfl⟩), by simp_all, by simp_all⟩
  | encodeSinkFail scs hdr =>
    exact ⟨nofun, fun _ _ => .inr (.inl ⟨scs, hdr, rfl, rfl⟩), nofun,
      fun _ _ => .inr (.inl ⟨scs, hdr, rfl, .inr rfl⟩), fun _ _ => ⟨scs, hdr, rfl, rfl⟩, nofun⟩
  | reset => simp [cmdWrite, encode]
  | powerOn => simp
  | idxWrite => simp_all

/-- The sink's history only grows, and of the commands only ENCODE adds to it. -/
theorem CommandEffect.history {s t : State} {i : Instr} (h : CommandEffect s i t) :
    s.sink.history <+: t.sink.history ∧
      (t.sink.history ≠ s.sink.history → ∃ scs hdr, i = .encode scs hdr) := by
  cases h with
  | rejected _ h => rw [h.raise_eq]; exact ⟨List.prefix_rfl, absurd rfl⟩
  | encodeDone => exact ⟨List.prefix_append _ _, fun _ => ⟨_, _, rfl⟩⟩
  | encodeSinkFail => exact ⟨List.prefix_append _ _, fun _ => ⟨_, _, rfl⟩⟩
  | reset => exact ⟨List.prefix_rfl, absurd rfl⟩
  | quantDone => exact ⟨List.prefix_rfl, absurd rfl⟩
  | quantOverflow => exact ⟨List.prefix_rfl, absurd rfl⟩
  | findc => exact ⟨List.prefix_rfl, absurd rfl⟩

theorem AccessEffect.history {s t : State} {op : HostOp} (h : AccessEffect s op t) :
    s.sink.history <+: t.sink.history ∧
      (t.sink.history ≠ s.sink.history →
        (∃ scs hdr, op = cmdWrite (encode (.encode scs hdr))) ∨ ∃ b, op = .sinkWrite b) := by
  cases h with
  | command h =>
    obtain ⟨hp, hne⟩ := h.history
    refine ⟨hp, fun hn => .inl ?_⟩
    obtain ⟨scs, hdr, rfl⟩ := hne hn
    exact ⟨scs, hdr, rfl⟩
  | sink b => exact ⟨List.prefix_append _ _, fun _ => .inr ⟨b, rfl⟩⟩
  | register r _ v => rw [writeReg_eq]; exact ⟨List.prefix_rfl, absurd rfl⟩
  | read => exact ⟨List.prefix_rfl, absurd rfl⟩
  | illegal => exact ⟨List.prefix_rfl, absurd rfl⟩
  | pix => exact ⟨List.prefix_rfl, absurd rfl⟩
  | idx => exact ⟨List.prefix_rfl, absurd rfl⟩
  | powerOn => exact ⟨List.prefix_rfl, absurd rfl⟩
  | ignored => exact ⟨List.prefix_rfl, absurd rfl⟩

/-- Settles O51: only ENCODE and the host's own byte reach the sink, and both append. -/
theorem sinkHistoryOnlyGrows : Obligations.SinkHistoryOnlyGrows := by
  intro s t h
  rcases step_next_cases h with ⟨-, rfl⟩ | ⟨op, rest, hop, h⟩
  · exact ⟨List.prefix_rfl, absurd rfl⟩
  · obtain ⟨hp, hne⟩ := (hostStep_effect h).history
    refine ⟨hp, fun hn => (hne hn).imp ?_ ?_⟩
    · rintro ⟨scs, hdr, rfl⟩
      exact ⟨scs, hdr, rest, hop⟩
    · rintro ⟨b, rfl⟩
      exact ⟨b, rest, hop⟩

end Sys2Proof.Machine

/-! QUANT's run does not look at the index stream it writes. -/

namespace Sys2Proof.Machine

/-- Two runs of QUANT that differ in the indices from position `k` on at most. -/
structure Quantizer.AgreeBelow (k : Nat) (q q' : Quantizer) : Prop where
  cmap : q'.cmap = q.cmap
  nextFree : q'.nextFree = q.nextFree
  ct : q'.ct = q.ct
  um : q'.um = q.um
  idx : ∀ j < k, q'.idx.read j = q.idx.read j

/-- Two scans end alike: both done, in runs that agree below `n`, or both at the same pixel. -/
inductive QuantScan.AgreeBelow (n : Nat) : QuantScan → QuantScan → Prop
  | done {q q' : Quantizer} (h : q.AgreeBelow n q') : AgreeBelow n (.done q) (.done q')
  | overflow (k : Nat) : AgreeBelow n (.overflow k) (.overflow k)
  | stop (f : Fault) : AgreeBelow n (.stop f) (.stop f)

theorem Quantizer.AgreeBelow.writeIdx {k : Nat} {q q' : Quantizer} (b : Byte) (h : q.AgreeBelow k q') :
    ∀ j < k + 1, (q'.idx.write k b).read j = (q.idx.write k b).read j := by
  intro j hj
  rw [Memory.read_write, Memory.read_write]
  split
  · rfl
  · exact h.idx j (by omega)

/-- A pixel has the same meaning in two runs that agree below it. -/
theorem quantPixel_agree {k : Nat} (c : Rgb) {q q' : Quantizer} (h : q.AgreeBelow k q') :
    (quantPixel k c q = none ∧ quantPixel k c q' = none) ∨
    ∃ p p', quantPixel k c q = some p ∧ quantPixel k c q' = some p' ∧ p.AgreeBelow (k + 1) p' := by
  simp only [quantPixel, h.cmap, h.nextFree, h.ct, h.um]
  cases q.cmap.lookup (colorKey c) with
  | some i => exact .inr ⟨_, _, rfl, rfl, rfl, rfl, rfl, rfl, h.writeIdx _⟩
  | none =>
    by_cases hf : q.nextFree = Config.overflowAt
    · exact .inl ⟨if_pos hf, if_pos hf⟩
    · exact .inr ⟨_, _, if_neg hf, if_neg hf, rfl, rfl, rfl, rfl, h.writeIdx _⟩

/-- Over the same pixels two runs that agree so far end alike. -/
theorem quantScan_agree {s s' : State} (hpix : s'.pix = s.pix) (n : Nat) {k : Nat} {q q' : Quantizer}
    (h : q.AgreeBelow k q') : (quantScan s n k q).AgreeBelow (k + n) (quantScan s' n k q') := by
  have hread : ∀ k, readPixel k s' = readPixel k s := fun k => readRgb_congr hpix
  induction n generalizing k q q' with
  | zero => exact .done h
  | succ n ih =>
    simp only [quantScan, hread]
    cases readPixel k s with
    | error f => exact .stop f
    | ok c =>
      rcases quantPixel_agree c h with ⟨e, e'⟩ | ⟨p, p', e, e', hp⟩ <;> simp only [e, e']
      · exact .overflow k
      · rw [show k + (n + 1) = k + 1 + n by omega]
        exact ih hp

theorem quantStart_agree (idx idx' : Memory) : (quantStart idx).AgreeBelow 0 (quantStart idx') :=
  ⟨rfl, rfl, rfl, rfl, nofun⟩

/-- What a QUANT that is not refused by its checks gives, by the end of its scan. -/
def quantOutcome (s : State) : QuantScan → Host.Outcome State Fault Refusal
  | .done q => .next (quantComplete q s)
  | .overflow k => .next (raise .paletteOverflow (BitVec.ofNat 32 k) s)
  | .stop f => .fault f

theorem execQuant_eq_outcome {s : State} (hf : s.fail = false) (hn : s.pixelCount ≤ s.maxPix) :
    execQuant s = quantOutcome s (quantScan s s.pixelCount 0 (quantStart s.idx)) := by
  rcases execQuant_cases s with ⟨h, -⟩ | ⟨-, h, -⟩ | ⟨-, -, ⟨_, hs, e⟩ | ⟨_, hs, e⟩ | ⟨_, hs, e⟩⟩
  · rw [hf] at h; cases h
  · omega
  all_goals rw [e, hs]; rfl

/-- Settles O23: the two scans read the same pixels and start from the same table, so they end alike. -/
theorem quantForgetsEarlierFrames : Obligations.QuantForgetsEarlierFrames := by
  intro s s' t hf hf' hn hw hh hpix hmax h
  have hcount : s'.pixelCount = s.pixelCount := by rw [State.pixelCount, hw, hh, State.pixelCount]
  have hscan := quantScan_agree hpix s.pixelCount (quantStart_agree s.idx s'.idx)
  rw [exec, execQuant_eq_outcome hf hn] at h
  rw [exec, execQuant_eq_outcome hf' (by omega), hcount]
  rw [Nat.zero_add] at hscan
  generalize quantScan s s.pixelCount 0 (quantStart s.idx) = r, quantScan s' s.pixelCount 0 (quantStart s'.idx) = r'
    at h hscan ⊢
  cases hscan with
  | stop f => cases h
  | done hq =>
    obtain ⟨-, hfree, hct, hum, hidx⟩ := hq
    cases h
    refine ⟨_, rfl, hct, hum, ?_, rfl, rfl, rfl, rfl, ?_, hidx⟩
    · simp [hfree]
    · simp [hcount, hpix]
  | overflow k =>
    cases h
    refine ⟨_, rfl, rfl, rfl, rfl, rfl, rfl, rfl, rfl, ?_, ?_⟩
    · simp [hcount, hpix]
    · intro j hj
      simp [Memory.read_dropBelow, hcount, hj]

end Sys2Proof.Machine

/-! The ranges of the encoder's per-command state (10_state R64 to R68). -/

namespace Sys2Proof.Machine

theorem clearCode_eq (m : Nat) : clearCode m = 2 ^ m := Nat.one_shiftLeft m

/-! The final flush and the width update leave the accumulator as it is. -/

@[simp] theorem finalFlush_acc (z : Lzw) : (finalFlush z).acc = z.acc := by
  unfold finalFlush
  split <;> simp

@[simp] theorem finalFlush_accBits (z : Lzw) : (finalFlush z).accBits = z.accBits := by
  unfold finalFlush
  split <;> simp

@[simp] theorem finalFlush_pkt (z : Lzw) : (finalFlush z).pkt = [] := by
  unfold finalFlush
  split <;> simp

@[simp] theorem updateWidth_acc (m : Nat) (z : Lzw) : (updateWidth m z).acc = z.acc := by
  unfold updateWidth
  split_ifs <;> rfl

@[simp] theorem updateWidth_accBits (m : Nat) (z : Lzw) : (updateWidth m z).accBits = z.accBits := by
  unfold updateWidth
  split_ifs <;> rfl

@[simp] theorem updateWidth_pkt (m : Nat) (z : Lzw) : (updateWidth m z).pkt = z.pkt := by
  unfold updateWidth
  split_ifs <;> rfl

/-- The width after a code has been output (41_lzw_encoder R188). -/
def Lzw.nextWidth (m : Nat) (z : Lzw) : Nat :=
  if z.clearFlag then m + 1
  else if 2 ^ z.nBits - 1 < z.freeEnt ∧ z.nBits < 12 then z.nBits + 1 else z.nBits

theorem updateWidth_table (m : Nat) (z : Lzw) :
    (updateWidth m z).table = (z.dict, z.freeEnt, z.nextWidth m, false) := by
  unfold updateWidth Lzw.nextWidth initBits Config.maxBits
  rw [Nat.one_shiftLeft]
  cases hc : z.clearFlag <;> simp only [Bool.false_eq_true, if_true, if_false]
  · split_ifs <;> simp [Lzw.table, hc]
  · rfl

/-- The next width depends on what no byte-moving procedure touches. -/
theorem nextWidth_congr (m : Nat) {y z : Lzw} (h : y.table = z.table) : y.nextWidth m = z.nextWidth m := by
  simp only [Lzw.table, Prod.mk.injEq] at h
  obtain ⟨-, hfree, hbits, hflag⟩ := h
  unfold Lzw.nextWidth
  rw [hfree, hbits, hflag]

/-- OutputCode changes the width and takes back clearFlag; dictionary and freeEnt stay (41_lzw_encoder R188, R191). -/
theorem outputCode_fields (m code : Nat) (z : Lzw) :
    (outputCode m code z).dict = z.dict ∧ (outputCode m code z).freeEnt = z.freeEnt ∧
      (outputCode m code z).nBits = z.nextWidth m ∧ (outputCode m code z).clearFlag = false := by
  have hw := writeCode_table code z
  have h := (outputCode_table m code z).trans (updateWidth_table m (writeCode code z))
  rw [nextWidth_congr m hw] at h
  simp only [Lzw.table, Prod.mk.injEq] at h hw
  obtain ⟨hdict, hfree, hbits, hflag⟩ := h
  exact ⟨hdict.trans hw.1, hfree.trans hw.2.1, hbits, hflag⟩

theorem outputCode_acc (m code : Nat) (z : Lzw) : (outputCode m code z).acc = (writeCode code z).acc := by
  unfold outputCode
  split <;> simp

theorem outputCode_accBits (m code : Nat) (z : Lzw) :
    (outputCode m code z).accBits = (z.accBits + z.nBits) % 8 := by
  have h : (writeCode code z).accBits = (z.accBits + z.nBits) % 8 := by
    rw [writeCode, (moveBytes_acc _ _).2, Nat.mod_eq_sub]
  unfold outputCode
  split <;> simp [h]

/-- A code that fits its width leaves the accumulator inside its valid bits. -/
theorem outputCode_acc_lt (m : Nat) {code : Nat} {z : Lzw} (hacc : z.acc < 2 ^ z.accBits) (hcode : code < 2 ^ z.nBits) :
    (outputCode m code z).acc < 2 ^ (outputCode m code z).accBits := by
  rw [outputCode_acc, outputCode_accBits, writeCode, (moveBytes_acc _ _).1, Nat.shiftRight_eq_div_pow]
  refine Nat.div_lt_of_lt_mul ?_
  rw [← Nat.pow_add, Nat.div_add_mod]
  refine Nat.or_lt_two_pow (hacc.trans_le (Nat.pow_le_pow_right (by decide) (Nat.le_add_right _ _))) ?_
  rw [Nat.shiftLeft_eq, Nat.pow_add, Nat.mul_comm]
  exact Nat.mul_lt_mul_of_pos_left hcode (Nat.two_pow_pos _)

theorem outputCode_pkt_length (m code : Nat) {z : Lzw} (h : z.pkt.length ≤ 253) :
    (outputCode m code z).pkt.length ≤ 253 := by
  unfold outputCode
  split
  · simp
  · rw [updateWidth_pkt]
    exact moveBytes_pkt_length _ h

/-- The next width is in range when the current one is. -/
theorem nextWidth_range {m : Nat} {z : Lzw} (hm : m ≤ 8) (h : z.InRange m) :
    initBits m ≤ z.nextWidth m ∧ z.nextWidth m ≤ 12 := by
  have hge := h.nBitsGe
  have hle := h.nBitsLe
  unfold Lzw.nextWidth
  unfold initBits at hge ⊢
  split_ifs <;> omega

/-- Outputting a code that fits the current width keeps the ranges. -/
theorem outputCode_inRange {m code : Nat} {z : Lzw} (hm : m ≤ 8) (h : z.InRange m) (hcode : code < 2 ^ z.nBits) :
    (outputCode m code z).InRange m := by
  obtain ⟨-, hfree, hbits, -⟩ := outputCode_fields m code z
  obtain ⟨hge, hle⟩ := nextWidth_range hm h
  exact {
    freeEntGe := hfree ▸ h.freeEntGe
    freeEntLe := hfree ▸ h.freeEntLe
    nBitsGe := hbits ▸ hge
    nBitsLe := hbits ▸ hle
    accBitsLe := by rw [outputCode_accBits]; omega
    accLt := outputCode_acc_lt m h.accLt hcode
    pktLenLe := outputCode_pkt_length m code h.pktLenLe }

/-- What the scan keeps between two indices, `ent` the code of the current string: the ranges, every code in use
assigned, and every assigned code within the current width (41_lzw_encoder R196). -/
structure Lzw.ScanOk (m ent : Nat) (z : Lzw) : Prop where
  inRange : z.InRange m
  noClear : z.clearFlag = false
  entLt : ent < z.freeEnt
  dictLt : ∀ key v, z.dict.lookup key = some v → v < z.freeEnt
  freeLe : z.freeEnt ≤ 2 ^ z.nBits

/-- CLEAR fits every width the encoder uses. -/
theorem clearCode_lt_of_inRange {m : Nat} {z : Lzw} (h : z.InRange m) : clearCode m < 2 ^ z.nBits := by
  rw [clearCode_eq]
  exact Nat.pow_lt_pow_right (by decide) h.nBitsGe

/-- With the widest code or not, after the update the next code to be assigned fits while the code space has room. -/
theorem freeEnt_lt_two_pow_nextWidth {m ent : Nat} {z : Lzw} (h : z.ScanOk m ent) (hroom : z.freeEnt < 4096) :
    z.freeEnt < 2 ^ z.nextWidth m := by
  have hfree := h.freeLe
  have hle := h.inRange.nBitsLe
  unfold Lzw.nextWidth
  rw [h.noClear, if_neg (by decide)]
  split_ifs with hw
  · rw [Nat.pow_succ]
    omega
  · by_cases hb : z.nBits < 12
    · exact Nat.lt_of_le_pred (Nat.two_pow_pos _) (Nat.le_of_not_lt fun hlt => hw ⟨hlt, hb⟩)
    · rw [show z.nBits = 12 by omega]
      exact hroom

/-- After a CLEAR the scan starts afresh, at an index below CLEAR. -/
theorem scanOk_of_clear {m c : Nat} {z : Lzw} (hm2 : 2 ≤ m) (hc : c < 2 ^ m) (h : z.InRange m)
    (hflag : z.clearFlag = false) (hdict : z.dict = []) (hfree : z.freeEnt = clearCode m + 2)
    (hbits : z.nBits = m + 1) : z.ScanOk m c where
  inRange := h
  noClear := hflag
  entLt := by rw [hfree, clearCode_eq]; omega
  dictLt := by simp [hdict]
  freeLe := by
    have := Nat.pow_le_pow_right (n := 2) (by decide) hm2
    rw [hfree, hbits, clearCode_eq, Nat.pow_succ]
    omega

/-- The first CLEAR of an ENCODE. -/
theorem scanOk_start {m c : Nat} (hdr : Bool) (hm2 : 2 ≤ m) (hm : m ≤ 8) (hc : c < 2 ^ m) :
    (outputCode m (clearCode m) (lzwStart m hdr)).ScanOk m c := by
  have hle := Nat.pow_le_pow_right (n := 2) (by decide) hm
  have h : (lzwStart m hdr).InRange m := {
    freeEntGe := le_rfl
    freeEntLe := by simp only [lzwStart, clearCode_eq]; omega
    nBitsGe := le_rfl
    nBitsLe := by simp only [lzwStart, initBits]; omega
    accBitsLe := by simp [lzwStart]
    accLt := by simp [lzwStart]
    pktLenLe := by simp [lzwStart] }
  obtain ⟨hdict, hfree, hbits, hflag⟩ := outputCode_fields m (clearCode m) (lzwStart m hdr)
  refine scanOk_of_clear hm2 hc (outputCode_inRange hm h (clearCode_lt_of_inRange h)) hflag hdict hfree ?_
  have hle2 := Nat.pow_le_pow_right (n := 2) (by decide) hm2
  rw [hbits]
  unfold Lzw.nextWidth
  simp only [lzwStart, initBits, clearCode_eq, Bool.false_eq_true, if_false]
  exact if_neg (by rw [Nat.pow_succ]; omega)

/-- A table clear in the middle of a stream (41_lzw_encoder R190). -/
theorem scanOk_clearBlock {m c : Nat} {z : Lzw} (hm2 : 2 ≤ m) (hm : m ≤ 8) (hc : c < 2 ^ m) (h : z.InRange m) :
    (clearBlock m z).ScanOk m c := by
  have hle := Nat.pow_le_pow_right (n := 2) (by decide) hm
  have h' : { z with dict := [], freeEnt := eoiCode m + 1, clearFlag := true }.InRange m := {
    freeEntGe := le_rfl
    freeEntLe := by simp only [eoiCode, clearCode_eq]; omega
    nBitsGe := h.nBitsGe
    nBitsLe := h.nBitsLe
    accBitsLe := h.accBitsLe
    accLt := h.accLt
    pktLenLe := h.pktLenLe }
  obtain ⟨hdict, hfree, hbits, hflag⟩ := outputCode_fields m (clearCode m) _
  exact scanOk_of_clear hm2 hc (outputCode_inRange hm h' (clearCode_lt_of_inRange h')) hflag hdict hfree hbits

/-- A pair that the dictionary does not know keeps the scan's invariant. -/
theorem scanOk_miss {m ent c : Nat} {z : Lzw} (hm2 : 2 ≤ m) (hm : m ≤ 8) (hc : c < 2 ^ m) (h : z.ScanOk m ent) :
    (insertOrClear m ent c (outputCode m ent z)).ScanOk m c := by
  have hout : (outputCode m ent z).InRange m :=
    outputCode_inRange hm h.inRange (h.entLt.trans_le h.freeLe)
  obtain ⟨hdict, hfree, hbits, hflag⟩ := outputCode_fields m ent z
  unfold insertOrClear
  split
  · rename_i hroom
    rw [Config.codeSpace, hfree] at hroom
    have hge := h.inRange.freeEntGe
    rw [clearCode_eq] at hge
    have hfit := freeEnt_lt_two_pow_nextWidth h hroom
    exact {
      inRange := { hout with
        freeEntGe := by simp only [hfree, clearCode_eq]; omega
        freeEntLe := by simp only [hfree]; omega }
      noClear := hflag
      entLt := by simp only [hfree]; omega
      dictLt := by
        intro key v hv
        simp only [hdict, hfree, List.lookup_cons] at hv ⊢
        split at hv
        · cases hv; omega
        · exact Nat.lt_succ_of_lt (h.dictLt key v hv)
      freeLe := by simp only [hfree, hbits]; omega }
  · exact scanOk_clearBlock hm2 hm hc hout

/-- Settles O38: the scan's invariant holds after the first CLEAR and is kept by a hit and by a miss. -/
theorem encoderStateStaysInRange : Obligations.EncoderStateStaysInRange := by
  intro m hdr c cs hm2 hm hc hcs
  exact (lzwScan_induct (P := fun ent z => z.ScanOk m ent)
    (hit := fun d hd ent z v hv h => { h with entLt := h.dictLt _ v hv })
    (miss := fun d hd ent z _ h => scanOk_miss hm2 hm (hcs d hd) h)
    (start := scanOk_start hdr hm2 hm hc)).inRange

end Sys2Proof.Machine

/-! Registers, power-on and the host's own accesses. -/

namespace Sys2Proof.Machine

/-! ## A step that runs a command -/

/-- A host write of a word to CMD runs the command it decodes to. -/
theorem hostStep_cmdWrite {w : Word} {i : Instr} (h : decode w = .ok i) (s : State) :
    hostStep (cmdWrite w) s = exec i s := by
  have hrun : hostStep (cmdWrite w) s = runCommand w s := rfl
  rw [hrun, runCommand, h]

theorem tableWord_toNat (w : Word) : tableWord 32 w.toNat = w := by
  rw [tableWord, Nat.mod_eq_of_lt w.isLt, BitVec.ofNat_toNat, BitVec.setWidth_eq]

/-- Settles O5: the step takes the access off and runs the decoded command. -/
theorem stepRunsDecodedInstruction : Obligations.StepRunsDecodedInstruction := by
  refine ⟨fun s w rest i hs hw => (step_of_host hs).trans (hostStep_cmdWrite hw _), fun s w i hw => ?_⟩
  have hs : (s.withFetchWord 32 w.toNat).host = cmdWrite w :: s.host := by
    rw [State.withFetchWord, tableWord_toNat]
  rw [step_of_host hs, hostStep_cmdWrite hw]
  rfl

/-! ## Power-on -/

/-- Settles O11: the fields of State.reset as readReg shows them, and four empty arrays. -/
theorem powerOnValues : Obligations.PowerOnValues := by
  refine ⟨rfl, rfl, rfl, rfl, rfl, rfl, rfl, rfl, rfl, rfl, rfl, fun space offset => ?_⟩
  cases space <;> rfl

/-- Settles O12: power-on writes every field but the sink, the host's lists and P_MAXPIX. -/
theorem powerOnAccessResets : Obligations.PowerOnAccessResets := by
  intro s rest h
  rw [step_of_host h]
  rfl

/-! ## Registers -/

/-- STATUS bit by bit, its fields from the lowest up. -/
theorem statusWord_getLsbD (s : State) (j : Nat) :
    (statusWord s).getLsbD j =
      if j < 1 then j = 0 && s.tv else if j - 1 < 1 then j - 1 = 0 && s.iv
      else if j - 1 - 1 < 1 then j - 1 - 1 = 0 && s.fail else if j - 1 - 1 - 1 < 1 then false
      else if j - 1 - 1 - 1 - 1 < 4 then s.err.code.getLsbD (j - 1 - 1 - 1 - 1) else false := by
  have h : (statusWord s).getLsbD j =
    (0#24 ++ s.err.code ++ 0#1 ++ BitVec.ofBool s.fail ++ BitVec.ofBool s.iv ++ BitVec.ofBool s.tv).getLsbD j := rfl
  rw [h]
  simp only [BitVec.getLsbD_append, BitVec.getLsbD_ofBool, BitVec.getLsbD_zero]

/-- The bits of STATUS above FAIL and the reserved bit 3 are the error code's. -/
theorem statusWord_getLsbD_err (s : State) (j : Nat) : (statusWord s).getLsbD (4 + j) = s.err.code.getLsbD j := by
  rw [statusWord_getLsbD, if_neg (by omega), if_neg (by omega), if_neg (by omega), if_neg (by omega),
    show 4 + j - 1 - 1 - 1 - 1 = j by omega]
  split
  · rfl
  · rename_i hj
    exact (BitVec.getLsbD_of_ge _ _ (Nat.le_of_not_lt hj)).symm

/-- Settles O44: the four low bits one by one, the others as the error code's. -/
theorem statusWordLayout : Obligations.StatusWordLayout := by
  intro s
  refine ⟨statusWord_getLsbD s 0, statusWord_getLsbD s 1, statusWord_getLsbD s 2, statusWord_getLsbD s 3, ?_, ?_⟩
  · refine BitVec.eq_of_getLsbD_eq fun j hj => ?_
    rw [BitVec.getLsbD_extractLsb', decide_eq_true hj, Bool.true_and]
    exact statusWord_getLsbD_err s j
  · refine BitVec.eq_of_getLsbD_eq fun j hj => ?_
    rw [BitVec.getLsbD_extractLsb', show 8 + j = 4 + (4 + j) by omega]
    rw [show readReg .status s = statusWord s from rfl, statusWord_getLsbD_err, BitVec.getLsbD_of_ge _ _ (by omega),
      Bool.and_false]
    exact BitVec.getLsbD_zero.symm

/-- A field of `n` bits that takes a word reads as the word's low `n` bits (10_state R57). -/
theorem setWidth_setWidth_eq_and (v : Word) {n : Nat} (h : n ≤ 32) :
    (v.setWidth n).setWidth 32 = v &&& BitVec.ofNat 32 (2 ^ n - 1) := by
  have hmask : 2 ^ n - 1 < 2 ^ 32 := (Nat.sub_lt (Nat.two_pow_pos n) one_pos).trans_le
    (Nat.pow_le_pow_right (by decide) h)
  apply BitVec.eq_of_toNat_eq
  rw [BitVec.toNat_and, BitVec.toNat_ofNat, Nat.mod_eq_of_lt hmask, Nat.and_two_pow_sub_one_eq_mod,
    BitVec.toNat_setWidth, BitVec.toNat_setWidth, Nat.mod_eq_of_lt ((Nat.mod_le _ _).trans_lt v.isLt)]

/-- A register write reaches no other register. -/
theorem readReg_writeReg_ne {r r' : Reg} (h : r' ≠ r) (v : Word) (s : State) :
    readReg r' (writeReg r v s) = readReg r' s := by
  cases r with
  | frameW => cases r' with
    | frameW => exact absurd rfl h
    | _ => rfl
  | frameH => cases r' with
    | frameH => exact absurd rfl h
    | _ => rfl
  | fcTarget => cases r' with
    | fcTarget => exact absurd rfl h
    | _ => rfl
  | _ => rfl

theorem readReg_writeReg_frameW (v : Word) (s : State) : readReg .frameW (writeReg .frameW v s) = v &&& 0x0000FFFF :=
  setWidth_setWidth_eq_and v (n := 16) (by decide)

theorem readReg_writeReg_frameH (v : Word) (s : State) : readReg .frameH (writeReg .frameH v s) = v &&& 0x0000FFFF :=
  setWidth_setWidth_eq_and v (n := 16) (by decide)

theorem readReg_writeReg_fcTarget (v : Word) (s : State) :
    readReg .fcTarget (writeReg .fcTarget v s) = v &&& 0x00FFFFFF :=
  setWidth_setWidth_eq_and v (n := 24) (by decide)

/-- Settles O45: the written register by its width, every other as before. -/
theorem registerReadAfterWrite : Obligations.RegisterReadAfterWrite := by
  intro s r r' v
  by_cases h : r' = r
  · subst h
    cases r' with
    | frameW => exact readReg_writeReg_frameW v s
    | frameH => exact readReg_writeReg_frameH v s
    | fcTarget => exact readReg_writeReg_fcTarget v s
    | _ => rfl
  · rw [readReg_writeReg_ne h, if_neg (fun hc => h hc.1), if_neg (fun hc => h hc.1)]

/-! ## The host's own accesses -/

/-- An aligned register access of four bytes is no bus error (20_memory R91). -/
theorem regAccess_aligned {offset : Nat} (ha : offset % 4 = 0) (hle : offset ≤ 0x3C) :
    regAccess offset 4 = some (regAt offset) :=
  if_pos ⟨rfl, ha, hle⟩

/-- Reading a register is no matter of the pending accesses. -/
theorem readReg_host (r : Reg) (s : State) (l : List HostOp) : readReg r { s with host := l } = readReg r s := by
  cases r <;> rfl

theorem writeReg_host (r : Reg) (v : Word) (s : State) (l : List HostOp) :
    writeReg r v { s with host := l } = { writeReg r v s with host := l } := by
  cases r <;> rfl

theorem hostStep_read_reg {offset width : Nat} {r : Reg} (h : regAccess offset width = some r) (s : State) :
    hostStep (.read .reg offset width) s = .next { s with reads := s.reads ++ [readReg r s] } := by
  simp only [hostStep, hostRead, busRead, h]

theorem hostStep_write_reg {offset width : Nat} {r : Reg} (h : regAccess offset width = some r) (hr : r ≠ .cmd)
    (v : Word) (s : State) : hostStep (.write .reg offset width v) s = .next (writeReg r v s) := by
  simp only [hostStep, hostWrite, h]

/-- Settles O46: regAt is the table of R42, and an aligned access is the register's read or write. -/
theorem registerAccessByOffset : Obligations.RegisterAccessByOffset := by
  refine ⟨⟨rfl, rfl, rfl, rfl, rfl, rfl, rfl, rfl, rfl, rfl, rfl, rfl, rfl, rfl, rfl, rfl⟩, fun _ => rfl, ?_⟩
  intro s offset rest ha hle
  have hacc := regAccess_aligned ha hle
  refine ⟨fun hs => ?_, fun v hs h0 => ?_⟩
  · rw [step_of_host hs, hostStep_read_reg hacc, readReg_host]
  · have hcmd : regAt offset ≠ .cmd := fun hc => h0 (regAccess_cmd (hacc.trans (congrArg some hc))).1
    rw [step_of_host hs, hostStep_write_reg hacc hcmd, writeReg_host]

/-- The sink's answers after one more byte has been offered. -/
theorem Sink.after_one_answerAt (k : Sink) (bs : List Byte) (j : Nat) :
    (k.after bs 1).answerAt j = k.answerAt (j + 1) := by
  rw [← k.advance_answerAt]
  simp [Sink.answerAt, Sink.after, Sink.advance]

/-- The host's own byte, by the sink's answer to it. -/
theorem hostSinkWrite_eq (b : Byte) (s : State) :
    hostSinkWrite b s =
      match s.sink.answerAt 0 with
      | .accept => .next { s with sink := s.sink.after [b] 1 }
      | .reject => .next { s with sink := s.sink.after [] 1 }
      | .silent => .fault .sinkSilent := by
  unfold hostSinkWrite
  rcases Sink.offerAll_cases [b] 0 s.sink with ⟨ha, e⟩ | ⟨j, hj, -, hr, e⟩ | ⟨j, hj, -, hr, e⟩
  · rw [e, ha 0 (by simp)]
    rfl
  · obtain rfl : j = 0 := by simpa using hj
    rw [e, hr]
    rfl
  · obtain rfl : j = 0 := by simpa using hj
    rw [e, hr]

/-- Settles O56: one case for each answer of the sink. -/
theorem hostSinkWriteAppends : Obligations.HostSinkWriteAppends := by
  intro s b rest hs
  have hstep : step s = hostSinkWrite b { s with host := rest } := step_of_host hs
  rw [hstep, hostSinkWrite_eq]
  refine ⟨fun ha => ?_, fun ha => ?_, fun ha => ?_⟩ <;> simp only [ha]
  · exact ⟨s.sink.after [b] 1, rfl, s.sink.after_one_answerAt [b], rfl⟩
  · exact ⟨s.sink.after [] 1, List.append_nil _, s.sink.after_one_answerAt [], rfl⟩

end Sys2Proof.Machine

/-! The arrays' invariant: a write or a consumed frame keeps an array in canonical form and inside its space. -/

namespace Sys2Proof.Machine

/-- An array in canonical form inside a space of `n` bytes (20_memory R90, R97). -/
structure Memory.Fits (n : Nat) (m : Memory) : Prop where
  wf : m.wf = true
  below : m.below n = true

theorem Memory.fits_nil (n : Nat) : Memory.Fits n [] := ⟨rfl, rfl⟩

theorem Memory.Fits.write {n a : Nat} {m : Memory} (h : m.Fits n) (ha : a < n) (b : Byte) : (m.write a b).Fits n :=
  ⟨Memory.wf_write a b h.wf, Memory.below_write b h.below ha⟩

theorem Memory.Fits.dropBelow {n : Nat} {m : Memory} (h : m.Fits n) (k : Nat) : (m.dropBelow k).Fits n :=
  ⟨Memory.wf_dropBelow k h.wf, Memory.below_dropBelow k h.below⟩

theorem Memory.Fits.writeSlot {n i : Nat} {ct : Memory} (h : ct.Fits n) (hi : 3 * i + 2 < n) (c : Rgb) :
    (writeSlot ct i c).Fits n :=
  ⟨writeSlot_wf i c h.wf, writeSlot_below c h.below hi⟩

theorem Memory.Fits.setUsed {n i : Nat} {um : Memory} (h : um.Fits n) (hi : i / 8 < n) : (setUsed um i).Fits n :=
  ⟨setUsed_wf i h.wf, setUsed_below h.below hi⟩

theorem initialMask_fits : initialMask.Fits 32 := ⟨by decide, by decide⟩

theorem State.memoryInv_iff (s : State) :
    s.MemoryInv ↔
      s.pix.Fits (s.spaceSize .pix) ∧ s.idx.Fits (s.spaceSize .idx) ∧ s.ct.Fits (s.spaceSize .ct) ∧
        s.um.Fits (s.spaceSize .um) := by
  constructor
  · rintro ⟨pixWf, idxWf, ctWf, umWf, pixBelow, idxBelow, ctBelow, umBelow⟩
    exact ⟨⟨pixWf, pixBelow⟩, ⟨idxWf, idxBelow⟩, ⟨ctWf, ctBelow⟩, ⟨umWf, umBelow⟩⟩
  · rintro ⟨⟨pixWf, pixBelow⟩, ⟨idxWf, idxBelow⟩, ⟨ctWf, ctBelow⟩, ⟨umWf, umBelow⟩⟩
    exact ⟨pixWf, idxWf, ctWf, umWf, pixBelow, idxBelow, ctBelow, umBelow⟩

/-- The invariant speaks of the four arrays and P_MAXPIX alone. -/
theorem State.MemoryInv.congr {s t : State} (h : s.MemoryInv) (hpix : t.pix = s.pix) (hidx : t.idx = s.idx)
    (hct : t.ct = s.ct) (hum : t.um = s.um) (hmax : t.maxPix = s.maxPix) : t.MemoryInv := by
  rw [State.memoryInv_iff] at h ⊢
  simpa only [State.spaceSize, hpix, hidx, hct, hum, hmax] using h

/-! ## QUANT -/

/-- What QUANT's run keeps of the arrays it writes, in a machine with `maxPix` pixels. -/
structure Quantizer.ArraysFit (maxPix : Nat) (q : Quantizer) : Prop where
  freeLe : q.nextFree ≤ 256
  ct : q.ct.Fits 768
  um : q.um.Fits 32
  idx : q.idx.Fits maxPix

theorem quantStart_arraysFit {maxPix : Nat} {idx : Memory} (h : idx.Fits maxPix) :
    (quantStart idx).ArraysFit maxPix where
  freeLe := show 1 ≤ 256 by decide
  ct := (Memory.fits_nil 768).writeSlot (by decide) _
  um := initialMask_fits
  idx := h

theorem quantPixel_arraysFit {maxPix k : Nat} {c : Rgb} {q q' : Quantizer} (h : q.ArraysFit maxPix) (hk : k < maxPix)
    (hq : quantPixel k c q = some q') : q'.ArraysFit maxPix := by
  obtain ⟨hle, hct, hum, hidx⟩ := h
  rcases quantPixel_cases k c q with ⟨_, -, e⟩ | ⟨-, -, e⟩ | ⟨-, hne, e⟩ <;> cases e.symm.trans hq
  · exact ⟨hle, hct, hum, hidx.write hk _⟩
  · have hlt : q.nextFree < 256 := by omega
    exact ⟨hlt, hct.writeSlot (by omega) c, hum.setUsed (by omega), hidx.write hk _⟩

/-- A frame no longer than P_MAXPIX is scanned inside the arrays. -/
theorem quantScan_arraysFit {s : State} {maxPix n : Nat} {idx : Memory} {q : Quantizer} (hidx : idx.Fits maxPix)
    (hn : n ≤ maxPix) (h : quantScan s n 0 (quantStart idx) = .done q) : q.ArraysFit maxPix :=
  quantScan_done_induct (P := fun k q => k ≤ maxPix → q.ArraysFit maxPix)
    (fun _ _ _ _ _ hq ih hk => quantPixel_arraysFit (ih (by omega)) hk hq) h
    (fun _ => quantStart_arraysFit hidx) (by omega)

theorem execQuant_keeps_memoryInv {s t : State} (hs : s.MemoryInv) (h : execQuant s = .next t) : t.MemoryInv := by
  obtain ⟨hpix, hidx, -, -⟩ := s.memoryInv_iff.mp hs
  rcases execQuant_cases s with ⟨-, e⟩ | ⟨-, -, e⟩ | ⟨-, hn, ⟨f, -, e⟩ | ⟨k, -, e⟩ | ⟨q, hq, e⟩⟩ <;>
    cases e.symm.trans h
  · exact hs.congr rfl rfl rfl rfl rfl
  · exact hs.congr rfl rfl rfl rfl rfl
  · exact (State.memoryInv_iff _).mpr
      ⟨hpix.dropBelow _, hidx.dropBelow _, Memory.fits_nil _, Memory.fits_nil _⟩
  · obtain ⟨-, hct, hum, hidx'⟩ := quantScan_arraysFit hidx hn hq
    exact (State.memoryInv_iff _).mpr ⟨hpix.dropBelow _, hidx', hct, hum⟩

/-! ## The other commands and a step -/

/-- A command other than QUANT leaves an array alone, drops cells of it, or drops it whole. -/
theorem CommandEffect.keeps_memoryInv {s t : State} {i : Instr} (h : CommandEffect s i t) (hi : i ≠ .quant)
    (hs : s.MemoryInv) : t.MemoryInv := by
  obtain ⟨hpix, hidx, hct, hum⟩ := s.memoryInv_iff.mp hs
  cases h with
  | rejected _ h => rw [h.raise_eq]; exact hs.congr rfl rfl rfl rfl rfl
  | reset => exact hs.congr rfl rfl rfl rfl rfl
  | quantDone => exact absurd rfl hi
  | quantOverflow => exact absurd rfl hi
  | findc => exact hs.congr rfl rfl rfl rfl rfl
  | encodeDone => exact (State.memoryInv_iff _).mpr ⟨hpix, hidx.dropBelow _, hct, hum⟩
  | encodeSinkFail =>
    exact (State.memoryInv_iff _).mpr ⟨hpix, hidx.dropBelow _, Memory.fits_nil _, Memory.fits_nil _⟩

theorem exec_keeps_memoryInv {i : Instr} {s t : State} (hs : s.MemoryInv) (h : exec i s = .next t) : t.MemoryInv := by
  by_cases hi : i = .quant
  · subst hi
    exact execQuant_keeps_memoryInv hs h
  · exact (exec_effect h).keeps_memoryInv hi hs

theorem runCommand_keeps_memoryInv {w : Word} {s t : State} (hs : s.MemoryInv) (h : runCommand w s = .next t) :
    t.MemoryInv := by
  rcases runCommand_cases w s with ⟨i, -, e⟩ | ⟨-, -, e⟩ <;> rw [e] at h
  · exact exec_keeps_memoryInv hs h
  · cases h
    exact hs.congr rfl rfl rfl rfl rfl

theorem hostStep_keeps_memoryInv {op : HostOp} {s t : State} (hs : s.MemoryInv) (h : hostStep op s = .next t) :
    t.MemoryInv := by
  obtain ⟨hpix, hidx, hct, hum⟩ := s.memoryInv_iff.mp hs
  rcases hostStep_next_cases h with ⟨_, _, _, v, -, -, rfl⟩ | ⟨w, -, hw⟩ | ⟨offset, v, -, rfl⟩ |
    ⟨offset, v, -, hlt, rfl⟩ | ⟨offset, v, -, hlt, rfl⟩ | ⟨b, -, -, rfl⟩ | ⟨b, -, -, rfl⟩ | ⟨-, rfl⟩ |
    ⟨_, _, _, _, -, rfl⟩
  · exact hs.congr rfl rfl rfl rfl rfl
  · exact runCommand_keeps_memoryInv hs hw
  · rw [writeReg_eq]
    exact hs.congr rfl rfl rfl rfl rfl
  · exact (State.memoryInv_iff _).mpr ⟨hpix.write hlt _, hidx, hct, hum⟩
  · exact (State.memoryInv_iff _).mpr ⟨hpix, hidx.write hlt _, hct, hum⟩
  · exact hs.congr rfl rfl rfl rfl rfl
  · exact hs.congr rfl rfl rfl rfl rfl
  · exact (State.memoryInv_iff _).mpr
      ⟨Memory.fits_nil _, Memory.fits_nil _, Memory.fits_nil _, Memory.fits_nil _⟩
  · exact hs

/-- Settles O52: QUANT's scan and the host's byte writes stay inside the spaces, and no other access adds a cell. -/
theorem stepKeepsMemoryInv : Obligations.StepKeepsMemoryInv := by
  intro s t hs h
  rcases step_next_cases h with ⟨-, rfl⟩ | ⟨op, rest, -, hop⟩
  · exact hs
  · have hrest : { s with host := rest }.MemoryInv := hs.congr rfl rfl rfl rfl rfl
    exact hostStep_keeps_memoryInv hrest hop

end Sys2Proof.Machine

/-! A step takes one access of the host. -/

namespace Sys2Proof.Machine

/-- No command touches the host's lists or P_MAXPIX. -/
theorem CommandEffect.host_fields {s t : State} {i : Instr} (h : CommandEffect s i t) :
    t.host = s.host ∧ t.maxPix = s.maxPix ∧ t.reads = s.reads := by
  cases h with
  | rejected _ h => rw [h.raise_eq]; exact ⟨rfl, rfl, rfl⟩
  | _ => exact ⟨rfl, rfl, rfl⟩

/-- Of the host's accesses only a read touches a list of the host. -/
theorem AccessEffect.host_fields {s t : State} {op : HostOp} (h : AccessEffect s op t) :
    t.host = s.host ∧ t.maxPix = s.maxPix ∧ s.reads <+: t.reads := by
  cases h with
  | read => exact ⟨rfl, rfl, List.prefix_append _ _⟩
  | command h =>
    obtain ⟨hhost, hmax, hreads⟩ := h.host_fields
    exact ⟨hhost, hmax, by rw [hreads]⟩
  | register r _ v => rw [writeReg_eq]; exact ⟨rfl, rfl, List.prefix_rfl⟩
  | _ => exact ⟨rfl, rfl, List.prefix_rfl⟩

/-- Settles O9: the step takes the access off, and the access itself touches at most the values read. -/
theorem stepTakesOneAccess : Obligations.StepTakesOneAccess := by
  intro s t h
  rcases step_next_cases h with ⟨hidle, rfl⟩ | ⟨op, rest, hop, h⟩
  · exact ⟨by rw [hidle, List.tail_nil], rfl, List.prefix_rfl⟩
  · rw [hop]
    exact (hostStep_effect h).host_fields

end Sys2Proof.Machine

/-! Where QUANT and ENCODE stop. -/

namespace Sys2Proof.Machine

/-! ## QUANT -/

/-- The scan stops only at a cell of its pixels. -/
theorem quantScan_stop {s : State} {n k : Nat} {q : Quantizer} {f : Fault} (h : quantScan s n k q = .stop f) :
    ∃ offset < 3 * (k + n), s.pix.read offset = none ∧ f = .noValue .pix offset := by
  induction n generalizing k q with
  | zero => cases h
  | succ n ih =>
    unfold quantScan at h
    split at h
    · rename_i f' hf
      cases h
      obtain ⟨d, hd, hnone, hnoValue⟩ := readRgb_error hf
      exact ⟨3 * k + d, by omega, hnone, hnoValue⟩
    · split at h
      · cases h
      · obtain ⟨offset, hlt, hstop⟩ := ih h
        exact ⟨offset, by omega, hstop⟩

/-- Settles O22: of QUANT's ends only the scan's stop is a fault. -/
theorem quantStopsOnlyAtUnwrittenPixel : Obligations.QuantStopsOnlyAtUnwrittenPixel := by
  intro s f h
  rw [exec] at h
  rcases execQuant_cases s with ⟨-, e⟩ | ⟨-, -, e⟩ | ⟨-, -, ⟨f', hf, e⟩ | ⟨k, -, e⟩ | ⟨q, -, e⟩⟩ <;>
    cases e.symm.trans h
  have hstop := quantScan_stop hf
  rwa [Nat.zero_add] at hstop

/-! ## ENCODE -/

theorem clearCode_minCodeSize (scs : Nat) : clearCode (minCodeSize scs) = 2 ^ max 2 scs := clearCode_eq _

/-- The pre-scan of a stream whose every index is below CLEAR reads the stream. -/
theorem indexScan_of_streamIs {s : State} {clear : Nat} {ids : List Byte} (hids : s.streamIs ids)
    (hclear : ∀ b ∈ ids, b.toNat < clear) : indexScan s clear s.pixelCount 0 = .inRange ids := by
  obtain ⟨hlen, hread⟩ := hids
  rcases indexScan_cases s clear s.pixelCount 0 with ⟨ids', e, hlen', h⟩ | ⟨j, hj, b, -, hb, hbad, -⟩ |
    ⟨j, hj, -, hnone, -⟩
  · rw [e, List.ext_getElem (hlen'.trans hlen.symm)]
    intro j hj' hj
    have hcell := (h j hj').1
    rw [Nat.zero_add, hread j hj] at hcell
    exact (Option.some.inj hcell).symm
  · rw [Nat.zero_add, hread j (by omega), Option.some.injEq] at hb
    have hlt := hclear _ (List.getElem_mem (by omega : j < ids.length))
    rw [hb] at hlt
    omega
  · rw [Nat.zero_add, hread j (by omega)] at hnone
    cases hnone

/-- What the pre-scan of a frame reads, when no index is out of range. -/
theorem streamIs_of_indexScan {s : State} {clear : Nat} {ids : List Byte}
    (h : indexScan s clear s.pixelCount 0 = .inRange ids) : s.streamIs ids ∧ ∀ b ∈ ids, b.toNat < clear := by
  rcases indexScan_cases s clear s.pixelCount 0 with ⟨ids', e, hlen, hids⟩ | ⟨j, -, b, e, -⟩ | ⟨j, -, e, -⟩ <;>
    cases e.symm.trans h
  refine ⟨⟨hlen, fun j hj => ?_⟩, fun b hb => ?_⟩
  · have hcell := (hids j hj).1
    rwa [Nat.zero_add] at hcell
  · obtain ⟨j, hj, rfl⟩ := List.getElem_of_mem hb
    exact (hids j hj).2

/-- The pre-scan of a frame stops only at the first cell that holds no value, with every index before it in range. -/
theorem indexScan_stop {s : State} {clear n : Nat} {f : Fault} (h : indexScan s clear n 0 = .stop f) :
    ∃ k < n, s.idx.read k = none ∧ f = .noValue .idx k ∧ ∀ j < k, ∃ b, s.idx.read j = some b ∧ b.toNat < clear := by
  rcases indexScan_cases s clear n 0 with ⟨ids, e, -⟩ | ⟨j, -, b, e, -⟩ | ⟨k, hk, e, hnone, hbefore⟩ <;>
    cases e.symm.trans h
  simp only [Nat.zero_add] at hnone hbefore ⊢
  exact ⟨k, hk, hnone, rfl, hbefore⟩

/-- With the checks passed ENCODE is its run phase, over the bytes of the frame's stream (41_lzw_encoder R181). -/
theorem execEncode_eq_run {s : State} {scs : Nat} (hdr : Bool) {ids : List Byte} (hf : s.fail = false)
    (hn : s.pixelCount ≤ s.maxPix) (hscs : scs ≤ 8) (hiv : s.iv = true) (hids : s.streamIs ids)
    (hclear : ∀ b ∈ ids, b.toNat < 2 ^ max 2 scs) :
    execEncode scs hdr s = encodeRun (max 2 scs) (imageData (max 2 scs) hdr ids) s := by
  have hscan := indexScan_of_streamIs hids hclear
  rw [← clearCode_minCodeSize] at hscan
  have hlegal : ¬Config.maxScs < scs := Nat.not_lt.mpr hscs
  rw [execEncode, unlessFailed_of_not hf, if_neg (Nat.not_lt.mpr hn), if_neg hlegal, if_pos hiv, hscan]
  rfl

/-- The run phase is stuck when the sink accepts `n` bytes and never answers the next. -/
theorem encodeRun_of_silent {s : State} (m : Nat) {bytes : List Byte} {n : Nat} (hn : n < bytes.length)
    (hacc : ∀ j < n, s.sink.answerAt j = .accept) (hsil : s.sink.answerAt n = .silent) :
    encodeRun m bytes s = .fault .sinkSilent := by
  rcases encodeRun_cases m bytes s with ⟨hall, -⟩ | ⟨j, -, hbefore, hrej, -⟩ | ⟨j, -, -, -, e⟩
  · rw [hall n hn] at hsil
    cases hsil
  · rcases Nat.lt_trichotomy j n with hlt | rfl | hgt
    · rw [hacc j hlt] at hrej
      cases hrej
    · rw [hsil] at hrej
      cases hrej
    · rw [hbefore n hgt] at hsil
      cases hsil
  · exact e

theorem encodeRun_fault {m : Nat} {bytes : List Byte} {s : State} {f : Fault} (h : encodeRun m bytes s = .fault f) :
    f = .sinkSilent ∧
      ∃ n < bytes.length, (∀ j < n, s.sink.answerAt j = .accept) ∧ s.sink.answerAt n = .silent := by
  rcases encodeRun_cases m bytes s with ⟨-, e⟩ | ⟨j, -, -, -, e⟩ | ⟨j, hj, hacc, hsil, e⟩ <;> cases e.symm.trans h
  exact ⟨rfl, j, hj, hacc, hsil⟩

/-- Settles O32: ENCODE reaches its run phase, and the run phase the byte that is never answered. -/
theorem encodeStuckOnSilentSink : Obligations.EncodeStuckOnSilentSink := by
  intro s scs hdr ids n hf hn hscs hiv hids hclear hlt hacc hsil
  rw [exec, execEncode_eq_run hdr hf hn hscs hiv hids hclear]
  exact encodeRun_of_silent _ hlt hacc hsil

/-- Settles O34: past the checks either the pre-scan or the run phase stops. -/
theorem encodeStopsOnlyAtUnwrittenIndexOrSilence : Obligations.EncodeStopsOnlyAtUnwrittenIndexOrSilence := by
  intro s scs hdr f h
  rw [exec] at h
  rcases execEncode_cases scs hdr s with ⟨-, e⟩ | ⟨-, -, e⟩ | ⟨-, -, -, e⟩ | ⟨-, -, -, -, e⟩ |
    ⟨hf, hn, hscs, hiv, hpast⟩
  iterate 4 cases e.symm.trans h
  refine ⟨hf, hn, hscs, hiv, ?_⟩
  rcases hpast with ⟨f', hstop, e⟩ | ⟨k, -, e⟩ | ⟨ids, hscan, e⟩ <;> rw [e] at h
  · cases h
    rw [clearCode_minCodeSize] at hstop
    exact .inl (indexScan_stop hstop)
  · cases h
  · rw [clearCode_minCodeSize] at hscan
    obtain ⟨hids, hclear⟩ := streamIs_of_indexScan hscan
    obtain ⟨hf', hsilent⟩ := encodeRun_fault h
    exact .inr ⟨hf', ids, hids, hclear, hsilent⟩

end Sys2Proof.Machine

/-! The host's accesses to the arrays, and the bus errors. -/

namespace Sys2Proof.Machine

/-! ## A bus access, by its space -/

theorem regAccess_eq_none_iff {offset width : Nat} :
    regAccess offset width = none ↔ width ≠ 4 ∨ offset % 4 ≠ 0 ∨ 0x3C < offset := by
  unfold regAccess
  split <;> simp <;> omega

theorem State.cellAccess_iff (s : State) (space : Space) (offset width : Nat) :
    s.cellAccess space offset width = true ↔ width = 1 ∧ offset < s.spaceSize space :=
  decide_eq_true_iff

/-- A read of an array space is a read of the cell, or gives 0 on a bus error. -/
theorem busRead_array {space : Space} (h : space ≠ .reg) (offset width : Nat) (s : State) :
    busRead space offset width s =
      if s.cellAccess space offset width then (readCell space offset s).map (·.setWidth 32) else .ok 0 := by
  cases space with
  | reg => exact absurd rfl h
  | _ => simp only [busRead]; cases readCell _ offset s <;> rfl

/-- A write to an array space is a write of the cell, or ignored on a bus error. -/
theorem hostStep_write_array {space : Space} (h : space ≠ .reg) (offset width : Nat) (v : Word) (s : State) :
    hostStep (.write space offset width v) s =
      .next (if s.cellAccess space offset width then writeCell space offset (v.setWidth 8) s else s) := by
  cases space with
  | reg => exact absurd rfl h
  | _ => exact (apply_ite Host.Outcome.next _ _ _).symm

theorem hostStep_read_ok {space : Space} {offset width : Nat} {s : State} {v : Word}
    (h : busRead space offset width s = .ok v) :
    hostStep (.read space offset width) s = .next { s with reads := s.reads ++ [v] } := by
  rw [hostStep, hostRead, h]

theorem hostStep_read_error {space : Space} {offset width : Nat} {s : State} {f : Fault}
    (h : busRead space offset width s = .error f) : hostStep (.read space offset width) s = .fault f := by
  rw [hostStep, hostRead, h]

/-! ## Bus errors -/

theorem State.cellAccess_eq_false {s : State} {space : Space} {offset width : Nat}
    (h : width ≠ 1 ∨ s.spaceSize space ≤ offset) : s.cellAccess space offset width = false :=
  decide_eq_false (by omega)

theorem busRead_reg_busError {offset width : Nat} (h : width ≠ 4 ∨ offset % 4 ≠ 0 ∨ 0x3C < offset) (s : State) :
    busRead .reg offset width s = .ok 0 := by
  simp only [busRead, regAccess_eq_none_iff.mpr h]

theorem busRead_array_busError {space : Space} {offset width : Nat} {s : State} (hs : space ≠ .reg)
    (h : width ≠ 1 ∨ s.spaceSize space ≤ offset) : busRead space offset width s = .ok 0 := by
  rw [busRead_array hs, State.cellAccess_eq_false h]
  rfl

/-- A write to a read-only register is ignored (10_state R42, 20_memory R96). -/
theorem writeReg_regAt_readOnly {offset : Nat} (hw : offset ≠ 0x0C) (hh : offset ≠ 0x10) (ht : offset ≠ 0x18) (v : Word)
    (s : State) : writeReg (regAt offset) v s = s := by
  unfold regAt
  split <;> simp_all [writeReg]

/-- A register write that is a bus error, or to a read-only register, is ignored. -/
theorem hostStep_write_reg_ignored {offset width : Nat}
    (h : width ≠ 4 ∨ offset % 4 ≠ 0 ∨ 0x3C < offset ∨
      (offset ≠ 0x00 ∧ offset ≠ 0x0C ∧ offset ≠ 0x10 ∧ offset ≠ 0x18)) (v : Word) (s : State) :
    hostStep (.write .reg offset width v) s = .next s := by
  by_cases hbad : width ≠ 4 ∨ offset % 4 ≠ 0 ∨ 0x3C < offset
  · simp only [hostStep, hostWrite, regAccess_eq_none_iff.mpr hbad]
  · obtain ⟨h0, hw, hh, ht⟩ : offset ≠ 0x00 ∧ offset ≠ 0x0C ∧ offset ≠ 0x10 ∧ offset ≠ 0x18 := by omega
    obtain ⟨rfl, ha, hle⟩ : width = 4 ∧ offset % 4 = 0 ∧ offset ≤ 0x3C := by omega
    have hacc := regAccess_aligned ha hle
    have hcmd : regAt offset ≠ .cmd := fun hc => h0 (regAccess_cmd (hacc.trans (congrArg some hc))).1
    rw [hostStep_write_reg hacc hcmd, writeReg_regAt_readOnly hw hh ht]

/-- An array write that is a bus error is ignored. -/
theorem hostStep_write_array_busError {space : Space} {offset width : Nat} {s : State} (hs : space ≠ .reg)
    (h : width ≠ 1 ∨ s.spaceSize space ≤ offset) (v : Word) :
    hostStep (.write space offset width v) s = .next s := by
  rw [hostStep_write_array hs, State.cellAccess_eq_false h]
  rfl

/-- Settles O47: an access that is a bus error gives 0 or is ignored, and so is a write to what is read-only. -/
theorem busErrorsHaveNoEffect : Obligations.BusErrorsHaveNoEffect := by
  refine ⟨fun s space offset width rest hs hreg hpix hidx hct hum => ?_,
    fun s space offset width v rest hs hreg hpix hidx => ?_⟩ <;> rw [step_of_host hs]
  · refine hostStep_read_ok ?_
    cases space with
    | reg => exact busRead_reg_busError (hreg rfl) _
    | pix => exact busRead_array_busError nofun (hpix rfl)
    | idx => exact busRead_array_busError nofun (hidx rfl)
    | ct => exact busRead_array_busError nofun (hct rfl)
    | um => exact busRead_array_busError nofun (hum rfl)
  · cases space with
    | reg => exact hostStep_write_reg_ignored (hreg rfl) v _
    | pix => exact hostStep_write_array_busError (space := .pix) (s := { s with host := rest }) nofun (hpix rfl) v
    | idx => exact hostStep_write_array_busError (space := .idx) (s := { s with host := rest }) nofun (hidx rfl) v
    | ct => exact (hostStep_write_array (space := .ct) nofun offset width v _).trans (congrArg _ (ite_self _))
    | um => exact (hostStep_write_array (space := .um) nofun offset width v _).trans (congrArg _ (ite_self _))

/-! ## Accesses to a cell -/

/-- A byte read inside an array's space is a read of the cell. -/
theorem busRead_cell {space : Space} {offset : Nat} {s : State} (h : space ≠ .reg) (hlt : offset < s.spaceSize space) :
    busRead space offset 1 s = (readCell space offset s).map (·.setWidth 32) := by
  rw [busRead_array h, if_pos ((s.cellAccess_iff space offset 1).mpr ⟨rfl, hlt⟩)]

theorem hostStep_read_some {space : Space} {offset : Nat} {s : State} {b : Byte} (h : space ≠ .reg)
    (hlt : offset < s.spaceSize space) (hb : (s.array space).read offset = some b) :
    hostStep (.read space offset 1) s = .next { s with reads := s.reads ++ [b.setWidth 32] } := by
  apply hostStep_read_ok
  rw [busRead_cell h hlt, readCell_ok.mpr hb]
  rfl

theorem hostStep_read_none {space : Space} {offset : Nat} {s : State} (h : space ≠ .reg)
    (hlt : offset < s.spaceSize space) (hnone : (s.array space).read offset = none) :
    hostStep (.read space offset 1) s = .fault (.noValue space offset) := by
  apply hostStep_read_error
  rw [busRead_cell h hlt, readCell_error.mpr ⟨hnone, rfl⟩]
  rfl

/-- The arrays are no matter of the pending accesses. -/
theorem State.array_host (s : State) (l : List HostOp) (space : Space) :
    { s with host := l }.array space = s.array space := by
  cases space <;> rfl

/-- Settles O49: the read is in its space, so it gives the cell's byte or its fault. -/
theorem hostReadOfCell : Obligations.HostReadOfCell := by
  intro s space offset rest hs hspace hlt
  rw [step_of_host hs, ← s.array_host rest]
  exact ⟨fun _ hb => hostStep_read_some hspace hlt hb, hostStep_read_none hspace hlt⟩

/-- A byte write inside an array's space. -/
theorem hostStep_write_cell {space : Space} {offset : Nat} {s : State} (h : space ≠ .reg)
    (hlt : offset < s.spaceSize space) (v : Word) :
    hostStep (.write space offset 1 v) s = .next (writeCell space offset (v.setWidth 8) s) := by
  rw [hostStep_write_array h, if_pos ((s.cellAccess_iff space offset 1).mpr ⟨rfl, hlt⟩)]

theorem hostStep_read_next {space : Space} {offset width : Nat} {s t : State}
    (h : hostStep (.read space offset width) s = .next t) : ∃ v, t = { s with reads := s.reads ++ [v] } := by
  cases hr : busRead space offset width s with
  | error f => cases (hostStep_read_error hr).symm.trans h
  | ok v =>
    cases (hostStep_read_ok hr).symm.trans h
    exact ⟨v, rfl⟩

theorem Memory.read_write_eq (m : Memory) (offset : Nat) (b : Byte) (a : Nat) :
    (m.write offset b).read a = if a = offset then some b else m.read a := by
  simp only [Memory.read_write, eq_comm]

/-- Settles O48: the two writable arrays by their cell writes, every read by the value it gives. -/
theorem hostArrayAccesses : Obligations.HostArrayAccesses := by
  refine ⟨fun s offset v rest hs hlt => ?_, fun s offset v rest hs hlt => ?_,
    fun s t space offset width rest hs h => ?_⟩
  · have hwrite := hostStep_write_cell (space := .idx) (s := { s with host := rest }) nofun hlt v
    exact ⟨_, (step_of_host hs).trans hwrite, rfl, s.idx.read_write_eq offset _⟩
  · have hwrite := hostStep_write_cell (space := .pix) (s := { s with host := rest }) nofun hlt v
    exact ⟨_, (step_of_host hs).trans hwrite, rfl, s.pix.read_write_eq offset _⟩
  · exact hostStep_read_next ((step_of_host hs).symm.trans h)

end Sys2Proof.Machine

/-! Command words: the decoder against the encoder, and the legal words by their bits (30_encoding R120 to R128). -/

namespace Sys2Proof

/-- An ENCODE word without reserved bits decodes to its operand fields (30_encoding R121, R123). -/
theorem decode_encode_fields {w : Word} (hopc : wordOpc w = 0x04) (hres : wordReserved w = 0) :
    decode w = .ok (.encode (wordScs w) (wordHdr w)) := by
  rw [decode, if_pos hopc, if_pos hres]

/-- Settles O2: the one word of each command without operands, and ENCODE's by its fields. -/
theorem decodeOfEncode : Obligations.DecodeOfEncode := by
  intro i hi
  cases i with
  | reset => exact decode_reset_word
  | quant => exact decode_quant_word
  | findc => exact decode_findc_word
  | encode scs hdr =>
    obtain ⟨hopc, hops, hres⟩ := Laws.EncodingFields.encode scs hdr hi
    obtain ⟨hscs, hhdr⟩ := Prod.mk.inj hops
    rw [decode_encode_fields hopc hres, hscs, hhdr]

/-- SCS is a 4-bit field, so whatever decodes is well-formed. -/
theorem wellFormed_of_decode {w : Word} {i : Instr} (h : decode w = .ok i) : i.wellFormed = true := by
  unfold decode at h
  split_ifs at h
  · cases h
    exact decide_eq_true (Nat.le_of_lt_succ (w.extractLsb' 8 4).isLt)
  all_goals
    obtain ⟨rfl, -⟩ := decodePlain_ok h
    rfl

/-- Settles O3: what decodes is well-formed, and its fields are all the bits of the word. -/
theorem encodeOfDecode : Obligations.EncodeOfDecode :=
  fun _ _ h => ⟨wellFormed_of_decode h, encode_of_decode h⟩

theorem exists_decodePlain_ok_iff (w : Word) (i : Instr) : (∃ j, decodePlain w i = .ok j) ↔ wordUpper w = 0 := by
  unfold decodePlain
  split <;> simpa

/-- Settles O4: the decoder's branches, by the opcode. -/
theorem legalWordsByBits : Obligations.LegalWordsByBits := by
  intro w
  change (∃ i, decode w = .ok i) ↔ (wordOpc w = 4#8 ∧ wordReserved w = 0#19) ∨
    ((wordOpc w = 1#8 ∨ wordOpc w = 2#8 ∨ wordOpc w = 3#8) ∧ wordUpper w = 0#24)
  simp only [decode, BitVec.ofNat_eq_ofNat]
  split_ifs with hencode hres hreset hquant hfindc
  · simp [hencode, hres]
  · simp [hencode, hres]
  · simp [hreset, exists_decodePlain_ok_iff]
  · simp [hquant, exists_decodePlain_ok_iff]
  · simp [hfindc, exists_decodePlain_ok_iff]
  · simp [hencode, hreset, hquant, hfindc]

/-- Settles O1: each word by running the decoder. -/
theorem decodeOfWrittenWords : Obligations.DecodeOfWrittenWords := by
  unfold Obligations.DecodeOfWrittenWords
  decide

end Sys2Proof

/-! No command and no host access is refused. -/

namespace Sys2Proof.Machine

/-- Every command has a meaning (30_encoding R122). -/
theorem exec_ne_refused (i : Instr) (s : State) (r : Refusal) : exec i s ≠ .refused r := by
  cases i with
  | reset => nofun
  | quant =>
    change execQuant s ≠ _
    rcases execQuant_cases s with ⟨-, e⟩ | ⟨-, -, e⟩ | ⟨-, -, ⟨_, -, e⟩ | ⟨_, -, e⟩ | ⟨_, -, e⟩⟩ <;> rw [e] <;> nofun
  | findc =>
    change execFindc s ≠ _
    rcases execFindc_cases s with ⟨-, e⟩ | ⟨-, -, e⟩ | ⟨-, -, ⟨_, -, e⟩ | ⟨_, -, e⟩⟩ <;> rw [e] <;> nofun
  | encode scs hdr =>
    change execEncode scs hdr s ≠ _
    rcases execEncode_cases scs hdr s with ⟨-, e⟩ | ⟨-, -, e⟩ | ⟨-, -, -, e⟩ | ⟨-, -, -, -, e⟩ |
      ⟨-, -, -, -, ⟨_, -, e⟩ | ⟨_, -, e⟩ | ⟨ids, -, e⟩⟩ <;> rw [e]
    case inr.inr.inr.inr.inr.inr =>
      rcases encodeRun_cases (minCodeSize scs) (imageData (minCodeSize scs) hdr ids) s with
        ⟨-, e⟩ | ⟨_, -, -, -, e⟩ | ⟨_, -, -, -, e⟩ <;> rw [e] <;> nofun
    all_goals nofun

theorem runCommand_ne_refused (w : Word) (s : State) (r : Refusal) : runCommand w s ≠ .refused r := by
  rcases runCommand_cases w s with ⟨i, -, e⟩ | ⟨-, -, e⟩ <;> rw [e]
  · exact exec_ne_refused i s r
  · nofun

/-- A write answers with a next state unless it starts a command. -/
theorem hostStep_write_ne_refused (space : Space) (offset width : Nat) (v : Word) (s : State) (r : Refusal) :
    hostStep (.write space offset width v) s ≠ .refused r := by
  by_cases hspace : space = .reg
  · subst hspace
    rw [hostStep, hostWrite]
    split
    · exact runCommand_ne_refused v s r
    · nofun
    · nofun
  · rw [hostStep_write_array hspace]
    nofun

/-- No host access is refused (20_memory R91 to R96). -/
theorem hostStep_ne_refused (op : HostOp) (s : State) (r : Refusal) : hostStep op s ≠ .refused r := by
  cases op with
  | read space offset width =>
    cases hr : busRead space offset width s with
    | ok v => rw [hostStep_read_ok hr]; nofun
    | error f => rw [hostStep_read_error hr]; nofun
  | write space offset width v => exact hostStep_write_ne_refused space offset width v s r
  | sinkWrite b =>
    rw [hostStep, hostSinkWrite_eq]
    split <;> nofun
  | powerOn => nofun

/-- Settles O8: a step is idle or the host's next access. -/
theorem noStepIsRefused : Obligations.NoStepIsRefused := by
  intro s r
  cases hs : s.host with
  | nil => rw [step, hs]; nofun
  | cons op rest => rw [step_of_host hs]; exact hostStep_ne_refused op _ r

end Sys2Proof.Machine

/-! The code stream's bits, bytes and sub-blocks: how each grows at its end (20_memory R100, 30_encoding R143, R145). -/

namespace Sys2Proof.Spec

/-! ## Bits -/

@[simp] theorem codeBits_length (cw : Nat × Nat) : (codeBits cw).length = cw.2 := by simp [codeBits]

theorem streamBits_cons (cw : Nat × Nat) (codes : List (Nat × Nat)) :
    streamBits (cw :: codes) = codeBits cw ++ streamBits codes := rfl

theorem streamBits_singleton (cw : Nat × Nat) : streamBits [cw] = codeBits cw := List.append_nil _

theorem streamBits_length (codes : List (Nat × Nat)) : (streamBits codes).length = (codes.map Prod.snd).sum := by
  simp [streamBits, List.length_flatMap]

theorem bitsToNat_append (a b : List Bool) : bitsToNat (a ++ b) = bitsToNat a + 2 ^ a.length * bitsToNat b := by
  induction a with
  | nil => simp [bitsToNat]
  | cons x a ih =>
    simp only [List.cons_append, bitsToNat, ih, List.length_cons, Nat.pow_succ]
    ring

theorem bitsToNat_lt (bits : List Bool) : bitsToNat bits < 2 ^ bits.length := by
  induction bits with
  | nil => simp [bitsToNat]
  | cons x bits ih =>
    have hx := x.toNat_lt
    simp only [bitsToNat, List.length_cons, Nat.pow_succ]
    omega

/-- A code that fits its width is the number its bits are (41_lzw_encoder R196). -/
theorem bitsToNat_codeBits {code width : Nat} (h : code < 2 ^ width) : bitsToNat (codeBits (code, width)) = code := by
  induction width generalizing code with
  | zero =>
    obtain rfl : code = 0 := by omega
    rfl
  | succ width ih =>
    have hcons : codeBits (code, width + 1) = code.testBit 0 :: codeBits (code / 2, width) := by
      simp [codeBits, List.range_succ_eq_map, Function.comp_def, Nat.testBit_succ]
    have hhalf : code / 2 < 2 ^ width := by rw [Nat.pow_succ] at h; omega
    rw [hcons, bitsToNat, ih hhalf, Nat.toNat_testBit, Nat.pow_zero, Nat.div_one, Nat.mod_add_div]

/-! ## Bytes -/

/-- A piece inside a list does not see what is appended. -/
theorem take_drop_append_of_le {α : Type} {l : List α} {a n : Nat} (h : a + n ≤ l.length) (q : List α) :
    ((l ++ q).drop a).take n = (l.drop a).take n := by
  rw [List.drop_append_of_le_length (by omega), List.take_append_of_le_length (by rw [List.length_drop]; omega)]

@[simp] theorem packBits_length (bits : List Bool) : (packBits bits).length = (bits.length + 7) / 8 := by
  simp [packBits]

/-- Whole bytes are packed on their own. -/
theorem packBits_append {whole : List Bool} (h : 8 ∣ whole.length) (rest : List Bool) :
    packBits (whole ++ rest) = packBits whole ++ packBits rest := by
  obtain ⟨k, hk⟩ := h
  have hwhole : (whole.length + 7) / 8 = k := by omega
  have hcount : ((whole ++ rest).length + 7) / 8 = k + (rest.length + 7) / 8 := by
    rw [List.length_append]
    omega
  unfold packBits
  rw [hcount, hwhole, List.range_add, List.map_append, List.map_map]
  congr 1
  · refine List.map_congr_left fun i hi => ?_
    rw [List.mem_range] at hi
    rw [take_drop_append_of_le (by omega)]
  · refine List.map_congr_left fun i _ => ?_
    rw [Function.comp_apply, Nat.mul_add, ← hk, List.drop_length_add_append]

/-- At most eight bits are one byte, padded with 0 (41_lzw_encoder R193). -/
theorem packBits_of_length_le_eight {bits : List Bool} (h0 : 0 < bits.length) (h8 : bits.length ≤ 8) :
    packBits bits = [BitVec.ofNat 8 (bitsToNat bits)] := by
  have hcount : (bits.length + 7) / 8 = 1 := by omega
  simp [packBits, hcount, List.take_of_length_le h8]

/-! ## Sub-blocks -/

/-- The full sub-blocks of a payload, each after its length byte (30_encoding R145). -/
def fullBlocks (p : List Byte) : List Byte :=
  (List.range (p.length / 254)).flatMap fun i => 254#8 :: (p.drop (254 * i)).take 254

/-- What of a payload is in no full sub-block: the packet of the encoder (10_state R68). -/
def openBlock (p : List Byte) : List Byte := p.drop (254 * (p.length / 254))

@[simp] theorem openBlock_length (p : List Byte) : (openBlock p).length = p.length % 254 := by
  rw [openBlock, List.length_drop, Nat.mod_eq_sub]

theorem subBlocks_eq (p : List Byte) :
    subBlocks p =
      fullBlocks p ++ if p.length % 254 = 0 then [] else BitVec.ofNat 8 (p.length % 254) :: openBlock p := rfl

/-- The first blocks do not see what is appended. -/
theorem flatMap_blocks_append {p : List Byte} {n : Nat} (h : 254 * n ≤ p.length) (q : List Byte) :
    ((List.range n).flatMap fun i => 254#8 :: ((p ++ q).drop (254 * i)).take 254) =
      (List.range n).flatMap fun i => 254#8 :: (p.drop (254 * i)).take 254 := by
  refine List.flatMap_congr fun i hi => ?_
  rw [List.mem_range] at hi
  rw [take_drop_append_of_le (by omega)]

theorem length_append_div_of_ne {p : List Byte} (h : p.length % 254 ≠ 253) (b : Byte) :
    (p ++ [b]).length / 254 = p.length / 254 := by
  rw [List.length_append, List.length_singleton]
  omega

/-- A byte that fills no block. -/
theorem fullBlocks_append_of_ne {p : List Byte} (h : p.length % 254 ≠ 253) (b : Byte) :
    fullBlocks (p ++ [b]) = fullBlocks p := by
  rw [fullBlocks, length_append_div_of_ne h, flatMap_blocks_append (Nat.mul_div_le _ _)]
  rfl

theorem openBlock_append_of_ne {p : List Byte} (h : p.length % 254 ≠ 253) (b : Byte) :
    openBlock (p ++ [b]) = openBlock p ++ [b] := by
  rw [openBlock, length_append_div_of_ne h, List.drop_append_of_le_length (Nat.mul_div_le _ _)]
  rfl

/-- The byte that fills a block. -/
theorem fullBlocks_append_of_eq {p : List Byte} (h : p.length % 254 = 253) (b : Byte) :
    fullBlocks (p ++ [b]) = fullBlocks p ++ 254#8 :: (openBlock p ++ [b]) := by
  have hcount : (p ++ [b]).length / 254 = p.length / 254 + 1 := by
    rw [List.length_append, List.length_singleton]
    omega
  have hle := Nat.mul_div_le p.length 254
  have hlast : ((p ++ [b]).drop (254 * (p.length / 254))).take 254 = openBlock p ++ [b] := by
    rw [List.drop_append_of_le_length hle]
    exact List.take_of_length_le (by rw [List.length_append, ← openBlock, openBlock_length, h]; rfl)
  rw [fullBlocks, hcount, List.range_succ, List.flatMap_append, flatMap_blocks_append hle, List.flatMap_singleton,
    hlast]
  rfl

theorem openBlock_append_of_eq {p : List Byte} (h : p.length % 254 = 253) (b : Byte) : openBlock (p ++ [b]) = [] := by
  refine List.eq_nil_of_length_eq_zero ?_
  rw [openBlock_length, List.length_append, List.length_singleton]
  omega

theorem fullBlocks_length (p : List Byte) : (fullBlocks p).length = 255 * (p.length / 254) := by
  have hblock : ∀ i ∈ List.range (p.length / 254), (254#8 :: (p.drop (254 * i)).take 254).length = 255 := by
    intro i hi
    rw [List.mem_range] at hi
    simp only [List.length_cons, List.length_take, List.length_drop]
    omega
  rw [fullBlocks, List.length_flatMap, List.map_congr_left hblock, List.map_const', List.sum_replicate]
  simp [Nat.mul_comm]

/-- One length byte a sub-block (30_encoding R145). -/
theorem subBlocks_length (p : List Byte) :
    (subBlocks p).length = p.length + p.length / 254 + if 0 < p.length % 254 then 1 else 0 := by
  rw [subBlocks_eq, List.length_append, fullBlocks_length]
  split_ifs <;> simp only [List.length_nil, List.length_cons, openBlock_length] <;> omega

/-! ## Widths -/

theorem codeWidth_range {m : Nat} (hm : m ≤ 11) (j : Nat) : m + 1 ≤ codeWidth m j ∧ codeWidth m j ≤ 12 := by
  unfold codeWidth
  omega

/-- Below the ceiling a width from m + 1 on is exceeded exactly when the next code to be assigned passes 2 to it. -/
theorem codeWidth_le_iff {m j w : Nat} (hw : m + 1 ≤ w) (hw12 : w < 12) :
    codeWidth m j ≤ w ↔ 2 ^ m + 2 + j ≤ 2 ^ w := by
  rw [← Nat.clog_le_iff_le_pow (by decide), codeWidth]
  omega

/-- The closed form grows as the width update does (41_lzw_encoder R188, R199). -/
theorem codeWidth_succ {m : Nat} (hm : m ≤ 11) (j : Nat) :
    codeWidth m (j + 1) =
      if 2 ^ codeWidth m j - 1 < 2 ^ m + 2 + j ∧ codeWidth m j < 12 then codeWidth m j + 1 else codeWidth m j := by
  obtain ⟨hge, hle⟩ := codeWidth_range hm j
  obtain ⟨hge', hle'⟩ := codeWidth_range hm (j + 1)
  have hmono : codeWidth m j ≤ codeWidth m (j + 1) := by
    have := Nat.clog_mono_right 2 (show 2 ^ m + 2 + j ≤ 2 ^ m + 2 + (j + 1) by omega)
    unfold codeWidth
    omega
  by_cases h12 : codeWidth m j < 12
  · have hpos := Nat.two_pow_pos (codeWidth m j)
    have hfit := (codeWidth_le_iff hge h12).mp le_rfl
    have hsame := codeWidth_le_iff (j := j + 1) hge h12
    have hnext : codeWidth m (j + 1) ≤ codeWidth m j + 1 := by
      by_cases h11 : codeWidth m j + 1 < 12
      · refine (codeWidth_le_iff (by omega) h11).mpr ?_
        rw [Nat.pow_succ]
        omega
      · omega
    split_ifs <;> omega
  · rw [if_neg (fun h => h12 h.2)]
    omega

theorem codeWidth_zero {m : Nat} (hm2 : 2 ≤ m) (hm : m ≤ 8) : codeWidth m 0 = m + 1 := by
  refine le_antisymm ((codeWidth_le_iff le_rfl (by omega)).mpr ?_) (codeWidth_range (by omega) 0).1
  have := Nat.pow_le_pow_right (n := 2) (by decide) hm2
  rw [Nat.pow_succ]
  omega

/-- Once the next code to be assigned is past 2048 the width is the widest. -/
theorem codeWidth_eq_twelve {m j : Nat} (hm : m ≤ 10) (h : 2 ^ 11 < 2 ^ m + 2 + j) : codeWidth m j = 12 := by
  have hle := (codeWidth_range (show m ≤ 11 by omega) j).2
  have hnot := mt (codeWidth_le_iff (show m + 1 ≤ 11 by omega) (by decide)).mp (Nat.not_le_of_lt h)
  omega

/-! ## Code streams -/

/-- Every code stream begins with CLEAR (41_lzw_encoder R183). -/
theorem codeStream_head (m : Nat) (ids : List Byte) : ∃ codes, codeStream m ids = (2 ^ m, m + 1) :: codes := ⟨_, rfl⟩

theorem codeStream_nil {m : Nat} (hm2 : 2 ≤ m) (hm : m ≤ 8) :
    codeStream m [] = [(2 ^ m, m + 1), (2 ^ m + 1, m + 1)] := by
  simp only [codeStream, codeWidth_zero hm2 hm]

theorem codeStream_cons (m : Nat) (c : Byte) (cs : List Byte) :
    codeStream m (c :: cs) = (2 ^ m, m + 1) :: codesFrom m cs c.toNat [] 0 := rfl

end Sys2Proof.Spec

/-! ENCODE's procedures give the framed code stream: what the emitted bytes, the packet and the accumulator hold of the
payload and of the bits written so far (41_lzw_encoder R190 to R193). -/

namespace Sys2Proof.Machine

open Sys2Proof.Spec

/-! ## Payload bytes -/

/-- The bytes emitted are `head` and the full sub-blocks of the payload `p`, the packet the rest of it
(41_lzw_encoder R192). -/
structure Lzw.Emits (head p : List Byte) (z : Lzw) : Prop where
  out : z.out = head ++ fullBlocks p
  pkt : z.pkt = openBlock p

theorem Lzw.Emits.charOut {head p : List Byte} {z : Lzw} (h : z.Emits head p) (b : Byte) :
    (charOut b z).Emits head (p ++ [b]) := by
  have hlen : z.pkt.length = p.length % 254 := by rw [h.pkt, openBlock_length]
  unfold Machine.charOut Config.pktMax
  rw [hlen]
  by_cases hfull : p.length % 254 = 253
  · have hlen' : (z.pkt ++ [b]).length = 254 := by rw [List.length_append, hlen, hfull, List.length_singleton]
    rw [if_pos (by omega), flushPacket, if_pos (by simp), hlen']
    exact {
      out := by rw [fullBlocks_append_of_eq hfull, ← List.append_assoc, ← h.out, ← h.pkt]
      pkt := (openBlock_append_of_eq hfull b).symm }
  · rw [if_neg (by omega)]
    exact {
      out := h.out.trans (by rw [fullBlocks_append_of_ne hfull])
      pkt := by rw [openBlock_append_of_ne hfull, h.pkt] }

/-- A flush emits the open sub-block too. -/
theorem Lzw.Emits.flushPacket_out {head p : List Byte} {z : Lzw} (h : z.Emits head p) :
    (flushPacket z).out = head ++ subBlocks p := by
  have hlen : z.pkt.length = p.length % 254 := by rw [h.pkt, openBlock_length]
  unfold flushPacket
  rw [subBlocks_eq, hlen, h.out, h.pkt]
  by_cases h0 : p.length % 254 = 0
  · simp [h0, h.out]
  · simp [h0, Nat.pos_of_ne_zero h0]

/-! ## Bits -/

/-- The whole bytes of `whole` are in the payload, and the accumulator holds the bits `rest` (41_lzw_encoder R191). -/
structure Lzw.Carries (head : List Byte) (whole rest : List Bool) (z : Lzw) : Prop where
  emits : z.Emits head (packBits whole)
  aligned : 8 ∣ whole.length
  acc : z.acc = bitsToNat rest
  accBits : z.accBits = rest.length

/-- The width update and the dictionary leave the bits alone. -/
theorem Lzw.Carries.congr {head : List Byte} {whole rest : List Bool} {y z : Lzw} (h : z.Carries head whole rest)
    (hout : y.out = z.out) (hpkt : y.pkt = z.pkt) (hacc : y.acc = z.acc) (hbits : y.accBits = z.accBits) :
    y.Carries head whole rest where
  emits := ⟨hout.trans h.emits.out, hpkt.trans h.emits.pkt⟩
  aligned := h.aligned
  acc := hacc.trans h.acc
  accBits := hbits.trans h.accBits

theorem lowByte_eq (acc : Nat) : lowByte acc = BitVec.ofNat 8 acc := by
  rw [lowByte, show (0xFF : Nat) = 2 ^ 8 - 1 from rfl, Nat.and_two_pow_sub_one_eq_mod]
  exact BitVec.eq_of_toNat_eq (by simp)

/-- The accumulator's low byte goes to the payload. -/
theorem Lzw.Carries.emits_charOut {head : List Byte} {whole byte rest : List Bool} {z : Lzw}
    (h : z.Carries head whole (byte ++ rest)) (hbyte : byte.length = 8) :
    (charOut (lowByte z.acc) z).Emits head (packBits (whole ++ byte)) := by
  have hlow : lowByte z.acc = BitVec.ofNat 8 (bitsToNat byte) := by
    rw [lowByte_eq, h.acc, bitsToNat_append, hbyte]
    exact BitVec.eq_of_toNat_eq (by simp)
  rw [packBits_append h.aligned, packBits_of_length_le_eight (by omega) hbyte.le, ← hlow]
  exact h.emits.charOut _

theorem Lzw.Carries.moveBytes {head : List Byte} {n : Nat} {whole moved rest : List Bool} {z : Lzw}
    (h : z.Carries head whole (moved ++ rest)) (hmoved : moved.length = 8 * n) :
    (moveBytes n z).Carries head (whole ++ moved) rest := by
  induction n generalizing whole moved z with
  | zero =>
    obtain rfl : moved = [] := List.eq_nil_of_length_eq_zero hmoved
    rwa [List.append_nil]
  | succ n ih =>
    have hbyte : (moved.take 8).length = 8 := by rw [List.length_take]; omega
    rw [← List.take_append_drop 8 moved, List.append_assoc] at h
    rw [← List.take_append_drop 8 moved, ← List.append_assoc, Machine.moveBytes]
    refine ih ?_ (by rw [List.length_drop]; omega)
    obtain ⟨hout, hpkt⟩ := h.emits_charOut hbyte
    exact {
      emits := ⟨hout, hpkt⟩
      aligned := by rw [List.length_append, hbyte]; exact (Nat.dvd_add_left (dvd_refl 8)).mpr h.aligned
      acc := by
        have hlt := bitsToNat_lt (moved.take 8)
        rw [hbyte] at hlt
        simp only [Nat.shiftRight_eq_div_pow, h.acc, bitsToNat_append, hbyte]
        omega
      accBits := by
        simp only [h.accBits, List.length_append, hbyte]
        omega }

/-- The bits written so far, whole bytes in the payload and fewer than eight in the accumulator (10_state R66, R67). -/
def Lzw.Written (head : List Byte) (bits : List Bool) (z : Lzw) : Prop :=
  ∃ whole rest, bits = whole ++ rest ∧ rest.length < 8 ∧ z.Carries head whole rest

/-- Nothing is written before the first code. -/
theorem lzwStart_written (m : Nat) (hdr : Bool) :
    (lzwStart m hdr).Written (if hdr then [BitVec.ofNat 8 m] else []) [] :=
  ⟨[], [], rfl, by simp, ⟨(List.append_nil _).symm, rfl⟩, by simp, rfl, rfl⟩

theorem Lzw.Written.congr {head : List Byte} {bits : List Bool} {y z : Lzw} (h : z.Written head bits)
    (hout : y.out = z.out) (hpkt : y.pkt = z.pkt) (hacc : y.acc = z.acc) (hbits : y.accBits = z.accBits) :
    y.Written head bits := by
  obtain ⟨whole, rest, heq, hlt, hc⟩ := h
  exact ⟨whole, rest, heq, hlt, hc.congr hout hpkt hacc hbits⟩

/-- A code that fits the current width is written with it (20_memory R100). -/
theorem Lzw.Written.writeCode {head : List Byte} {bits : List Bool} {code : Nat} {z : Lzw} (h : z.Written head bits)
    (hcode : code < 2 ^ z.nBits) : (writeCode code z).Written head (bits ++ codeBits (code, z.nBits)) := by
  obtain ⟨whole, rest, rfl, -, hc⟩ := h
  have hlt := bitsToNat_lt rest
  have hor : z.acc ||| code <<< z.accBits = bitsToNat (rest ++ codeBits (code, z.nBits)) := by
    rw [hc.acc, hc.accBits, Nat.or_comm, ← Nat.shiftLeft_add_eq_or_of_lt hlt, bitsToNat_append,
      bitsToNat_codeBits hcode, Nat.shiftLeft_eq, Nat.add_comm, Nat.mul_comm]
  have hlen : (rest ++ codeBits (code, z.nBits)).length = z.accBits + z.nBits := by
    rw [List.length_append, codeBits_length, hc.accBits]
  obtain ⟨moved, left, hsplit, hmoved⟩ : ∃ moved left,
      rest ++ codeBits (code, z.nBits) = moved ++ left ∧ moved.length = 8 * ((z.accBits + z.nBits) / 8) :=
    ⟨_, _, (List.take_append_drop (8 * ((z.accBits + z.nBits) / 8)) _).symm, by rw [List.length_take]; omega⟩
  rw [hsplit] at hor hlen
  refine ⟨whole ++ moved, left, by rw [List.append_assoc, hsplit, List.append_assoc], ?_, ?_⟩
  · rw [List.length_append] at hlen
    omega
  · exact Carries.moveBytes ⟨⟨hc.emits.out, hc.emits.pkt⟩, hc.aligned, hor, hlen.symm⟩ hmoved

/-- The final flush leaves every bit in sub-blocks (41_lzw_encoder R193). -/
theorem Lzw.Written.finalFlush_out {head : List Byte} {bits : List Bool} {z : Lzw} (h : z.Written head bits) :
    (finalFlush z).out = head ++ subBlocks (packBits bits) := by
  obtain ⟨whole, rest, rfl, hrest, hc⟩ := h
  have hacc : lowByte z.acc = BitVec.ofNat 8 (bitsToNat rest) := by rw [lowByte_eq, hc.acc]
  unfold finalFlush
  rw [packBits_append hc.aligned, hc.accBits]
  split
  · rename_i hpos
    rw [packBits_of_length_le_eight hpos hrest.le, ← hacc]
    exact (hc.emits.charOut _).flushPacket_out
  · rename_i hpos
    obtain rfl : rest = [] := List.eq_nil_of_length_eq_zero (by omega)
    exact (hc.emits.flushPacket_out).trans (by simp [packBits])

@[simp] theorem updateWidth_out (m : Nat) (z : Lzw) : (updateWidth m z).out = z.out := by
  unfold updateWidth
  split_ifs <;> rfl

theorem Lzw.Written.updateWidth {head : List Byte} {bits : List Bool} {z : Lzw} (h : z.Written head bits) (m : Nat) :
    (updateWidth m z).Written head bits :=
  h.congr (updateWidth_out m z) (updateWidth_pkt m z) (updateWidth_acc m z) (updateWidth_accBits m z)

/-- Every code but EOI. -/
theorem Lzw.Written.outputCode {head : List Byte} {bits : List Bool} {m code : Nat} {z : Lzw} (h : z.Written head bits)
    (hcode : code < 2 ^ z.nBits) (hne : code ≠ eoiCode m) :
    (outputCode m code z).Written head (bits ++ codeBits (code, z.nBits)) := by
  rw [Machine.outputCode, if_neg hne]
  exact (h.writeCode hcode).updateWidth m

/-- EOI ends the code stream (41_lzw_encoder R193). -/
theorem Lzw.Written.outputCode_eoi_out {head : List Byte} {bits : List Bool} {m : Nat} {z : Lzw}
    (h : z.Written head bits) (hcode : eoiCode m < 2 ^ z.nBits) :
    (Machine.outputCode m (eoiCode m) z).out =
      head ++ subBlocks (packBits (bits ++ codeBits (eoiCode m, z.nBits))) := by
  rw [Machine.outputCode, if_pos rfl]
  exact ((h.writeCode hcode).updateWidth m).finalFlush_out

/-! ## The scan -/

/-- Before a code of the scan, j codes after a CLEAR: the invariant of the scan with freeEnt and the width in closed
form (41_lzw_encoder R199), and EOI never the code of a string. -/
structure Lzw.ScanAt (m j ent : Nat) (z : Lzw) : Prop where
  ok : z.ScanOk m ent
  freeEnt : z.freeEnt = 2 ^ m + 2 + j
  nBits : z.nBits = codeWidth m j
  entNe : ent ≠ eoiCode m
  dictNe : ∀ key v, z.dict.lookup key = some v → v ≠ eoiCode m

theorem eoiCode_eq (m : Nat) : eoiCode m = 2 ^ m + 1 := congrArg (· + 1) (clearCode_eq m)

theorem Lzw.ScanAt.nextWidth {m j ent : Nat} {z : Lzw} (hm : m ≤ 8) (h : z.ScanAt m j ent) :
    z.nextWidth m = codeWidth m (j + 1) := by
  rw [codeWidth_succ (by omega), Lzw.nextWidth, h.ok.noClear, h.freeEnt, h.nBits]
  rfl

theorem eoiCode_lt_two_pow {m w : Nat} (hm2 : 2 ≤ m) (hw : m + 1 ≤ w) : eoiCode m < 2 ^ w := by
  have hle := Nat.pow_le_pow_right (n := 2) (by decide) hm2
  have hlt := Nat.pow_le_pow_right (n := 2) (by decide) hw
  rw [Nat.pow_succ] at hlt
  rw [eoiCode_eq]
  omega

/-- A string the dictionary knows (41_lzw_encoder R185). -/
theorem Lzw.ScanAt.hit {m j ent v : Nat} {key : Nat × Nat} {z : Lzw} (h : z.ScanAt m j ent)
    (hv : z.dict.lookup key = some v) : z.ScanAt m j v :=
  { h with ok := { h.ok with entLt := h.ok.dictLt key v hv }, entNe := h.dictNe key v hv }

/-- The insert with a code left for it (41_lzw_encoder R186). -/
theorem insertOrClear_of_lt {m ent c : Nat} {z : Lzw} (h : z.freeEnt < 4096) :
    insertOrClear m ent c z = { z with dict := ((ent, c), z.freeEnt) :: z.dict, freeEnt := z.freeEnt + 1 } :=
  if_pos h

/-- The insert with the code space exhausted (41_lzw_encoder R187). -/
theorem insertOrClear_of_not_lt {m ent c : Nat} {z : Lzw} (h : ¬ z.freeEnt < 4096) :
    insertOrClear m ent c z = clearBlock m z :=
  if_neg h

/-- After a CLEAR, at an index below CLEAR. -/
theorem scanAt_of_clear {m c : Nat} {z : Lzw} (hm2 : 2 ≤ m) (hm : m ≤ 8) (hc : c < 2 ^ m) (h : z.ScanOk m c)
    (hdict : z.dict = []) (hfree : z.freeEnt = 2 ^ m + 2) (hbits : z.nBits = m + 1) : z.ScanAt m 0 c where
  ok := h
  freeEnt := hfree
  nBits := hbits.trans (codeWidth_zero hm2 hm).symm
  entNe := by rw [eoiCode_eq]; omega
  dictNe := by simp [hdict]

theorem lzwStart_nextWidth {m : Nat} (hdr : Bool) (hm2 : 2 ≤ m) : (lzwStart m hdr).nextWidth m = m + 1 := by
  have hle := Nat.pow_le_pow_right (n := 2) (by decide) hm2
  unfold Lzw.nextWidth
  simp only [lzwStart, initBits, clearCode_eq, Bool.false_eq_true, if_false]
  exact if_neg (by rw [Nat.pow_succ]; omega)

/-- The first CLEAR (41_lzw_encoder R183). -/
theorem scanAt_start {m c : Nat} (hdr : Bool) (hm2 : 2 ≤ m) (hm : m ≤ 8) (hc : c < 2 ^ m) :
    (outputCode m (clearCode m) (lzwStart m hdr)).ScanAt m 0 c := by
  obtain ⟨hdict, hfree, hbits, -⟩ := outputCode_fields m (clearCode m) (lzwStart m hdr)
  exact scanAt_of_clear hm2 hm hc (scanOk_start hdr hm2 hm hc) hdict (hfree.trans (congrArg (· + 2) (clearCode_eq m)))
    (hbits.trans (lzwStart_nextWidth hdr hm2))

/-- A string the dictionary does not know gets the next code. -/
theorem Lzw.ScanAt.insert {m j ent c : Nat} {z : Lzw} (hm2 : 2 ≤ m) (hm : m ≤ 8) (hc : c < 2 ^ m)
    (h : z.ScanAt m j ent) (hroom : 2 ^ m + 2 + j < 4096) :
    (insertOrClear m ent c (outputCode m ent z)).ScanAt m (j + 1) c := by
  obtain ⟨hdict, hfree, hbits, -⟩ := outputCode_fields m ent z
  have hok := scanOk_miss hm2 hm hc h.ok
  rw [h.freeEnt] at hfree
  rw [insertOrClear_of_lt (by omega)] at hok ⊢
  exact {
    ok := hok
    freeEnt := congrArg (· + 1) hfree
    nBits := hbits.trans (h.nextWidth hm)
    entNe := by rw [eoiCode_eq]; omega
    dictNe := by
      intro key v hv
      simp only [hdict, hfree, List.lookup_cons] at hv
      split at hv
      · cases hv
        rw [eoiCode_eq]
        omega
      · exact h.dictNe key v hv }

/-- With the code space exhausted the scan starts afresh. -/
theorem Lzw.ScanAt.clear {m j ent c : Nat} {z : Lzw} (hm2 : 2 ≤ m) (hm : m ≤ 8) (hc : c < 2 ^ m)
    (h : z.ScanAt m j ent) (hfull : ¬ 2 ^ m + 2 + j < 4096) :
    (insertOrClear m ent c (outputCode m ent z)).ScanAt m 0 c := by
  obtain ⟨-, hfree, -, -⟩ := outputCode_fields m ent z
  have hok := scanOk_miss hm2 hm hc h.ok
  rw [h.freeEnt] at hfree
  rw [insertOrClear_of_not_lt (by omega)] at hok ⊢
  obtain ⟨hdict, hfree', hbits, -⟩ := outputCode_fields m (clearCode m)
    { outputCode m ent z with dict := [], freeEnt := eoiCode m + 1, clearFlag := true }
  exact scanAt_of_clear hm2 hm hc hok hdict (hfree'.trans (congrArg (· + 1) (eoiCode_eq m))) hbits

/-- The insert writes nothing. -/
theorem insertOrClear_written {m ent c : Nat} {head : List Byte} {bits : List Bool} {z : Lzw} (h : z.freeEnt < 4096)
    (hw : z.Written head bits) : (insertOrClear m ent c z).Written head bits := by
  rw [insertOrClear_of_lt h]
  exact hw.congr rfl rfl rfl rfl

/-- The code of the current string, written with the closed form's width. -/
theorem Lzw.ScanAt.written {m j ent : Nat} {head : List Byte} {bits : List Bool} {z : Lzw} (h : z.ScanAt m j ent)
    (hw : z.Written head bits) : (outputCode m ent z).Written head (bits ++ codeBits (ent, codeWidth m j)) := by
  have := hw.outputCode (h.ok.entLt.trans_le h.ok.freeLe) h.entNe
  rwa [h.nBits] at this

theorem Lzw.ScanAt.outputCode_nBits {m j ent : Nat} {z : Lzw} (hm : m ≤ 8) (h : z.ScanAt m j ent) :
    (outputCode m ent z).nBits = codeWidth m (j + 1) := by
  obtain ⟨-, -, hbits, -⟩ := outputCode_fields m ent z
  exact hbits.trans (h.nextWidth hm)

theorem clearBlock_dict (m : Nat) (z : Lzw) : (clearBlock m z).dict = [] := (outputCode_fields m (clearCode m) _).1

/-- A table clear writes CLEAR with the full width (41_lzw_encoder R187, R190). -/
theorem clearBlock_written {m : Nat} {head : List Byte} {bits : List Bool} {z : Lzw} (hm : m ≤ 8)
    (h : z.Written head bits) (hbits : z.nBits = 12) :
    (clearBlock m z).Written head (bits ++ codeBits (2 ^ m, 12)) := by
  have hlt : clearCode m < 2 ^ z.nBits := by
    rw [clearCode_eq, hbits]
    exact Nat.pow_lt_pow_right (by decide) (by omega)
  have hwritten : { z with dict := [], freeEnt := eoiCode m + 1, clearFlag := true }.Written head bits :=
    h.congr rfl rfl rfl rfl
  have := hwritten.outputCode hlt (Nat.ne_of_lt (Nat.lt_succ_self _))
  rwa [← clearCode_eq, ← hbits]

/-! ## The whole stream -/

/-- The bytes emitted when the last string's code and EOI have been output (41_lzw_encoder R189, R193). -/
def lzwFinish (m : Nat) (p : Nat × Lzw) : List Byte := (outputCode m (eoiCode m) (outputCode m p.1 p.2)).out

/-- The scan and the end of the stream write the codes of the closed form, by induction on the indices still to come. -/
theorem lzwFinish_lzwScan {m : Nat} (hm2 : 2 ≤ m) (hm : m ≤ 8) {head : List Byte} {cs : List Byte}
    (hcs : ∀ b ∈ cs, b.toNat < 2 ^ m) {bits : List Bool} {j ent : Nat} {z : Lzw} (h : z.ScanAt m j ent)
    (hw : z.Written head bits) :
    lzwFinish m (lzwScan m cs ent z) =
      head ++ subBlocks (packBits (bits ++ streamBits (codesFrom m cs ent z.dict j))) := by
  induction cs generalizing bits j ent z with
  | nil =>
    have hwidth := h.outputCode_nBits hm
    have hge := (codeWidth_range (show m ≤ 11 by omega) (j + 1)).1
    have hout := (h.written hw).outputCode_eoi_out (m := m) (by rw [hwidth]; exact eoiCode_lt_two_pow hm2 hge)
    rw [hwidth, eoiCode_eq, List.append_assoc] at hout
    rw [codesFrom, streamBits_cons, streamBits_singleton, ← hout, ← eoiCode_eq]
    rfl
  | cons c cs ih =>
    have hc := hcs c List.mem_cons_self
    have hcs' : ∀ b ∈ cs, b.toNat < 2 ^ m := fun b hb => hcs b (List.mem_cons_of_mem c hb)
    cases hv : z.dict.lookup (ent, c.toNat) with
    | some v =>
      simp only [lzwScan, codesFrom, hv]
      exact ih hcs' (h.hit hv) hw
    | none =>
      obtain ⟨hdict, hfree, -, -⟩ := outputCode_fields m ent z
      rw [h.freeEnt] at hfree
      have hent := h.written hw
      simp only [lzwScan, codesFrom, hv]
      by_cases hroom : 2 ^ m + 2 + j < 4096
      · rw [ih hcs' (h.insert hm2 hm hc hroom) (insertOrClear_written (hfree.trans_lt hroom) hent), if_pos hroom,
          streamBits_cons, List.append_assoc, insertOrClear_of_lt (hfree.trans_lt hroom), hdict, hfree]
      · have hwidth : (outputCode m ent z).nBits = 12 := by
          rw [h.outputCode_nBits hm]
          exact codeWidth_eq_twelve (by omega) (by omega)
        have hclear := insertOrClear_of_not_lt (m := m) (ent := ent) (c := c.toNat) (hfree.symm ▸ hroom)
        rw [ih hcs' (h.clear hm2 hm hc hroom) (hclear ▸ clearBlock_written hm hent hwidth), if_neg hroom,
          streamBits_cons, streamBits_cons, hclear, clearBlock_dict, List.append_assoc, List.append_assoc]

/-- The bytes ENCODE emits before the terminator. -/
theorem lzwStream_out {m : Nat} (hdr : Bool) {ids : List Byte} (hm2 : 2 ≤ m) (hm : m ≤ 8)
    (hids : ∀ b ∈ ids, b.toNat < 2 ^ m) :
    (lzwStream m ids (outputCode m (clearCode m) (lzwStart m hdr))).out =
      (if hdr then [BitVec.ofNat 8 m] else []) ++ subBlocks (packBits (streamBits (codeStream m ids))) := by
  have hclear : clearCode m < 2 ^ (lzwStart m hdr).nBits := by
    rw [clearCode_eq]
    exact Nat.pow_lt_pow_right (by decide) (Nat.lt_succ_self m)
  have hw := (lzwStart_written m hdr).outputCode hclear (Nat.ne_of_lt (Nat.lt_succ_self _))
  rw [List.nil_append] at hw
  obtain ⟨hdict, -, hbits, -⟩ := outputCode_fields m (clearCode m) (lzwStart m hdr)
  cases ids with
  | nil =>
    rw [lzwStart_nextWidth hdr hm2] at hbits
    have hout := hw.outputCode_eoi_out (m := m) (by rw [hbits]; exact eoiCode_lt_two_pow hm2 le_rfl)
    rw [hbits] at hout
    rw [codeStream_nil hm2 hm, streamBits_cons, streamBits_singleton, ← clearCode_eq]
    exact hout
  | cons c cs =>
    have hout := lzwFinish_lzwScan hm2 hm (fun b hb => hids b (List.mem_cons_of_mem c hb))
      (scanAt_start hdr hm2 hm (hids c List.mem_cons_self)) hw
    rw [hdict] at hout
    rw [codeStream_cons, streamBits_cons, ← clearCode_eq]
    exact hout

/-- Settles O40: the procedures write the code stream, and the terminator follows. -/
theorem imageDataIsFramedCodeStream : Obligations.ImageDataIsFramedCodeStream := by
  intro m hdr ids hm2 hm hids
  rw [imageData, lzwStream_out hdr hm2 hm hids, framed]

/-- Settles O41: the length of the framed code stream, which holds at least the bits of the first CLEAR. -/
theorem imageDataLength : Obligations.ImageDataLength := by
  intro m hdr ids hm2 hm hids
  refine ⟨_, _, rfl, rfl, ?_, ?_⟩
  · obtain ⟨codes, hcodes⟩ := codeStream_head m ids
    rw [hcodes, List.map_cons, List.sum_cons]
    omega
  · rw [imageDataIsFramedCodeStream m hdr ids hm2 hm hids, framed, List.length_append, List.length_append,
      subBlocks_length, packBits_length, streamBits_length, apply_ite List.length]
    simp only [List.length_singleton, List.length_nil]
    omega

end Sys2Proof.Machine

/-! QUANT's palette: what the scan holds after each pixel, in terms of the colors seen so far, and what a QUANT leaves. -/

namespace Sys2Proof.Spec

/-! ## First-seen order at its end -/

/-- Later pixels add the colors not seen before. -/
theorem firstSeen_append (as bs : List Rgb) :
    firstSeen (as ++ bs) = firstSeen as ++ (firstSeen bs).filter (· ∉ as) := by
  induction as with
  | nil => simp [firstSeen]
  | cons a as ih =>
    simp only [List.cons_append, firstSeen, ih, List.filter_append, List.filter_filter, List.cons.injEq, true_and,
      List.append_cancel_left_eq]
    congr 1
    funext c
    simp [List.mem_cons, not_or, Bool.decide_and]

theorem firstSeen_append_of_mem {cs : List Rgb} {c : Rgb} (h : c ∈ cs) : firstSeen (cs ++ [c]) = firstSeen cs := by
  simp [firstSeen_append, firstSeen, h]

theorem firstSeen_append_of_notMem {cs : List Rgb} {c : Rgb} (h : c ∉ cs) :
    firstSeen (cs ++ [c]) = firstSeen cs ++ [c] := by
  simp [firstSeen_append, firstSeen, h]

theorem firstSeen_length_le_append (as bs : List Rgb) : (firstSeen as).length ≤ (firstSeen (as ++ bs)).length := by
  rw [firstSeen_append, List.length_append]
  exact Nat.le_add_right _ _

/-- One color repeated. -/
theorem firstSeen_replicate (n : Nat) (c : Rgb) : firstSeen (List.replicate (n + 1) c) = [c] := by
  induction n with
  | zero => rfl
  | succ n ih => rw [List.replicate_succ, firstSeen, ih]; simp

/-! ## Slots -/

theorem slotOf_append_of_mem {as : List Rgb} {c : Rgb} (bs : List Rgb) (h : c ∈ as) :
    slotOf (as ++ bs) c = slotOf as c := by
  rw [slotOf, slotOf, firstSeen_append, List.idxOf_append_of_mem (mem_firstSeen.mpr h)]

theorem slotOf_append_of_notMem {cs : List Rgb} {c : Rgb} (h : c ∉ cs) :
    slotOf (cs ++ [c]) c = (firstSeen cs).length + 1 := by
  rw [slotOf, firstSeen_append_of_notMem h, List.idxOf_append_of_notMem (mt mem_firstSeen.mp h), List.idxOf_cons_self,
    Nat.add_zero]

theorem slotOf_le {cs : List Rgb} {c : Rgb} (h : c ∈ cs) : slotOf cs c ≤ (firstSeen cs).length :=
  List.idxOf_lt_length_of_mem (mem_firstSeen.mpr h)

theorem slotOf_replicate (n : Nat) (c : Rgb) : slotOf (List.replicate (n + 1) c) c = 1 := by
  rw [slotOf, firstSeen_replicate, List.idxOf_cons_self]

end Sys2Proof.Spec

namespace Sys2Proof.Machine

open Sys2Proof.Spec

/-- The key of a color names it (30_encoding R141). -/
theorem colorKey_injective : Function.Injective colorKey := by
  rintro ⟨r, g, b⟩ ⟨r', g', b'⟩ h
  have hb : b = b' := by
    simpa only [colorKey, BitVec.extractLsb'_append_eq_right] using congrArg (BitVec.extractLsb' 0 8) h
  have hrg : r ++ g = r' ++ g' := by
    simpa only [colorKey, BitVec.extractLsb'_append_eq_left] using congrArg (BitVec.extractLsb' 8 16) h
  have hg : g = g' := by
    simpa only [BitVec.extractLsb'_append_eq_right] using congrArg (BitVec.extractLsb' 0 8) hrg
  have hr : r = r' := by
    simpa only [BitVec.extractLsb'_append_eq_left] using congrArg (BitVec.extractLsb' 8 8) hrg
  rw [hr, hg, hb]

/-! ## Slots of CT and positions of IDX -/

/-- Slot `i` of a palette holds the color `c`. -/
def Memory.HoldsSlot (ct : Memory) (i : Nat) (c : Rgb) : Prop :=
  ct.read (3 * i) = some c.r ∧ ct.read (3 * i + 1) = some c.g ∧ ct.read (3 * i + 2) = some c.b

theorem readSlot_ok {i : Nat} {s : State} {c : Rgb} : readSlot i s = .ok c ↔ s.ct.HoldsSlot i c := readRgb_ok

theorem Memory.holdsSlot_writeSlot (ct : Memory) (i : Nat) (c : Rgb) : (writeSlot ct i c).HoldsSlot i c := by
  simp [HoldsSlot, read_writeSlot]

theorem Memory.HoldsSlot.writeSlot_ne {ct : Memory} {i j : Nat} {c : Rgb} (h : ct.HoldsSlot i c) (hij : i ≠ j)
    (d : Rgb) : (writeSlot ct j d).HoldsSlot i c := by
  have hread : ∀ k < 3, (writeSlot ct j d).read (3 * i + k) = ct.read (3 * i + k) := fun k hk => by
    rw [read_writeSlot, if_neg (by omega), if_neg (by omega), if_neg (by omega)]
  obtain ⟨hr, hg, hb⟩ := h
  exact ⟨(hread 0 (by decide)).trans hr, (hread 1 (by decide)).trans hg, (hread 2 (by decide)).trans hb⟩

/-- The indices of these pixels: each is its color's slot. -/
def Memory.IndicesOf (idx : Memory) (cs : List Rgb) : Prop :=
  ∀ k (h : k < cs.length), idx.read k = some (BitVec.ofNat 8 (slotOf cs cs[k]))

theorem Memory.IndicesOf.write {idx : Memory} {cs : List Rgb} {c : Rgb} {slot : Nat} (h : idx.IndicesOf cs)
    (hslot : slotOf (cs ++ [c]) c = slot) :
    (idx.write cs.length (BitVec.ofNat 8 slot)).IndicesOf (cs ++ [c]) := by
  intro k hk
  rw [Memory.read_write]
  split
  · rename_i hlast
    subst hlast
    rw [List.getElem_concat_length rfl, hslot]
  · rename_i hne
    have hlt : k < cs.length := by
      rw [List.length_append, List.length_singleton] at hk
      omega
    rw [List.getElem_append_left hlt, slotOf_append_of_mem _ (List.getElem_mem hlt)]
    exact h k hlt

/-! ## The scan -/

/-- What a run of QUANT holds after the pixels `cs` (40_quantizer R151 to R155). -/
structure Quantizer.Scanned (q : Quantizer) (cs : List Rgb) : Prop where
  nextFree : q.nextFree = (firstSeen cs).length + 1
  known : ∀ c ∈ cs, q.cmap.lookup (colorKey c) = some (slotOf cs c)
  unknown : ∀ c, c ∉ cs → q.cmap.lookup (colorKey c) = none
  slots : ∀ c ∈ cs, q.ct.HoldsSlot (slotOf cs c) c
  rest : ∀ offset, 3 * ((firstSeen cs).length + 1) ≤ offset → q.ct.read offset = none
  indices : q.idx.IndicesOf cs

theorem quantStart_scanned (idx : Memory) : (quantStart idx).Scanned [] where
  nextFree := rfl
  known := nofun
  unknown _ _ := rfl
  slots := nofun
  rest offset h := by
    have h3 : 3 ≤ offset := h
    show initialTable.read offset = none
    rw [initialTable, read_writeSlot, if_neg (by omega), if_neg (by omega), if_neg (by omega), Memory.read_nil]
  indices := nofun

section
variable {q : Quantizer} {cs : List Rgb} {c : Rgb}

/-- A pixel of a color seen before gets that color's slot (40_quantizer R152). -/
theorem Quantizer.Scanned.pixel_known (h : q.Scanned cs) (hc : c ∈ cs) :
    ∃ q', quantPixel cs.length c q = some q' ∧ q'.Scanned (cs ++ [c]) := by
  have hmem : ∀ d, d ∈ cs ++ [c] ↔ d ∈ cs := fun d => by simp +contextual [hc]
  refine ⟨{ q with idx := q.idx.write cs.length (BitVec.ofNat 8 (slotOf cs c)) }, ?_, ?_⟩
  · simp only [quantPixel, h.known c hc]
  · exact {
      nextFree := by rw [firstSeen_append_of_mem hc]; exact h.nextFree
      known := fun d hd => by
        rw [hmem] at hd
        rw [slotOf_append_of_mem _ hd]
        exact h.known d hd
      unknown := fun d hd => h.unknown d (mt (hmem d).mpr hd)
      slots := fun d hd => by
        rw [hmem] at hd
        rw [slotOf_append_of_mem _ hd]
        exact h.slots d hd
      rest := by rw [firstSeen_append_of_mem hc]; exact h.rest
      indices := h.indices.write (slotOf_append_of_mem _ hc) }

/-- A pixel of a new color gets the next free slot (40_quantizer R153). -/
theorem Quantizer.Scanned.pixel_new (h : q.Scanned cs) (hc : c ∉ cs) (hfree : q.nextFree ≠ 256) :
    ∃ q', quantPixel cs.length c q = some q' ∧ q'.Scanned (cs ++ [c]) := by
  have hslot : slotOf (cs ++ [c]) c = q.nextFree := (slotOf_append_of_notMem hc).trans h.nextFree.symm
  have hlen : (firstSeen (cs ++ [c])).length = q.nextFree := by
    rw [firstSeen_append_of_notMem hc, List.length_append, List.length_singleton, h.nextFree]
  refine ⟨⟨(colorKey c, q.nextFree) :: q.cmap, q.nextFree + 1, writeSlot q.ct q.nextFree c,
    setUsed q.um q.nextFree, q.idx.write cs.length (BitVec.ofNat 8 q.nextFree)⟩, ?_, ?_⟩
  · simp only [quantPixel, h.unknown c hc]
    exact if_neg hfree
  · exact {
      nextFree := by rw [hlen]
      known := fun d hd => by
        rcases List.mem_append.mp hd with hd | hd
        · have hne : (colorKey d == colorKey c) = false := beq_false_of_ne fun e => hc (colorKey_injective e ▸ hd)
          rw [slotOf_append_of_mem _ hd, List.lookup_cons, hne]
          exact h.known d hd
        · rw [List.mem_singleton.mp hd, hslot, List.lookup_cons_self]
      unknown := fun d hd => by
        obtain ⟨hd, hdc⟩ := not_or.mp (mt List.mem_append.mpr hd)
        have hne : (colorKey d == colorKey c) = false :=
          beq_false_of_ne fun e => hdc (List.mem_singleton.mpr (colorKey_injective e))
        rw [List.lookup_cons, hne]
        exact h.unknown d hd
      slots := fun d hd => by
        rcases List.mem_append.mp hd with hd | hd
        · have hle := slotOf_le hd
          have hnext := h.nextFree
          rw [slotOf_append_of_mem _ hd]
          exact (h.slots d hd).writeSlot_ne (by omega) c
        · rw [List.mem_singleton.mp hd, hslot]
          exact Memory.holdsSlot_writeSlot _ _ _
      rest := fun offset hoff => by
        rw [hlen] at hoff
        have hnext := h.nextFree
        rw [read_writeSlot, if_neg (by omega), if_neg (by omega), if_neg (by omega)]
        exact h.rest offset (by omega)
      indices := h.indices.write hslot }

/-- A pixel that keeps the colors within 255 gets its index. -/
theorem Quantizer.Scanned.pixel (h : q.Scanned cs) (hle : (firstSeen (cs ++ [c])).length ≤ 255) :
    ∃ q', quantPixel cs.length c q = some q' ∧ q'.Scanned (cs ++ [c]) := by
  by_cases hc : c ∈ cs
  · exact h.pixel_known hc
  · refine h.pixel_new hc ?_
    rw [firstSeen_append_of_notMem hc, List.length_append, List.length_singleton, ← h.nextFree] at hle
    omega

end

/-- The scan of the pixels `ds` after the pixels `cs`, where all have at most 255 colors. -/
theorem Quantizer.Scanned.scan {s : State} {q : Quantizer} {cs : List Rgb} (h : q.Scanned cs) (ds : List Rgb)
    (hread : ∀ k (hk : k < ds.length), readPixel (cs.length + k) s = .ok ds[k])
    (hle : (firstSeen (cs ++ ds)).length ≤ 255) :
    ∃ q', quantScan s ds.length cs.length q = .done q' ∧ q'.Scanned (cs ++ ds) := by
  induction ds generalizing q cs with
  | nil => exact ⟨q, rfl, by rwa [List.append_nil]⟩
  | cons d ds ih =>
    rw [List.append_cons] at hle ⊢
    obtain ⟨q₁, hpixel, h₁⟩ := h.pixel ((firstSeen_length_le_append _ ds).trans hle)
    have hfirst : readPixel cs.length s = .ok d := hread 0 (Nat.succ_pos _)
    have hrest : ∀ k (hk : k < ds.length), readPixel ((cs ++ [d]).length + k) s = .ok ds[k] := fun k hk => by
      rw [List.length_append, List.length_singleton, Nat.add_assoc, Nat.add_comm 1 k]
      exact hread (k + 1) (Nat.succ_lt_succ hk)
    obtain ⟨q', hscan, h'⟩ := ih h₁ hrest hle
    refine ⟨q', ?_, h'⟩
    rw [List.length_append, List.length_singleton] at hscan
    simp only [List.length_cons, quantScan, hfirst, hpixel]
    exact hscan

/-! ## The command -/

/-- A frame of at most 255 colors within P_MAXPIX completes (40_quantizer R154, R156). -/
theorem execQuant_of_frameIs {s : State} {cs : List Rgb} (hf : s.fail = false) (hn : s.pixelCount ≤ s.maxPix)
    (hcs : s.frameIs cs) (hle : (firstSeen cs).length ≤ 255) :
    ∃ q, exec .quant s = .next (quantComplete q s) ∧ q.Scanned cs ∧ (quantComplete q s).TableInv := by
  obtain ⟨hlen, hread⟩ := hcs
  obtain ⟨q, hscan, hq⟩ := (quantStart_scanned s.idx).scan (s := s) cs (by simpa using hread) hle
  rw [List.length_nil, hlen] at hscan
  refine ⟨q, ?_, hq, quantComplete_tableInv s (quantScan_tableOk hscan)⟩
  rw [exec, execQuant_eq_outcome hf hn, hscan]
  rfl

theorem Quantizer.Scanned.nColors {q : Quantizer} {cs : List Rgb} (h : q.Scanned cs)
    (hle : (firstSeen cs).length ≤ 255) (s : State) : (quantComplete q s).nColors.toNat = (firstSeen cs).length + 1 := by
  rw [quantComplete_nColors, h.nextFree, BitVec.toNat_ofNat]
  omega

/-- Settles O18: what the scan holds after the last pixel. -/
theorem quantBuildsFirstSeenPalette : Obligations.QuantBuildsFirstSeenPalette := by
  intro s cs hf hn hcs hle
  obtain ⟨q, hexec, hq, hinv⟩ := execQuant_of_frameIs hf hn hcs hle
  have hcolors := hq.nColors hle s
  refine ⟨_, hexec, rfl, rfl, rfl, rfl, hcolors, hinv.sentinel rfl, fun c hc => readSlot_ok.mpr (hq.slots c hc), ?_,
    hq.rest, hq.indices, fun offset hoff => ?_⟩
  · rw [← hcolors]
    exact hinv.usedIff rfl
  · rw [quantComplete_pix, Memory.read_dropBelow, if_pos hoff]

/-- A pixel writes its own index and no other. -/
theorem quantPixel_idx {k : Nat} {c : Rgb} {q q' : Quantizer} (h : quantPixel k c q = some q') :
    ∃ b, q'.idx = q.idx.write k b := by
  rcases quantPixel_cases k c q with ⟨_, -, e⟩ | ⟨-, -, e⟩ | ⟨-, -, e⟩ <;> cases e.symm.trans h
  · exact ⟨_, rfl⟩
  · exact ⟨_, rfl⟩

/-- A scan leaves the indices beyond its pixels as they were. -/
theorem quantScan_idx {s : State} {n a : Nat} {idx : Memory} {q : Quantizer}
    (h : quantScan s n 0 (quantStart idx) = .done q) (ha : n ≤ a) : q.idx.read a = idx.read a := by
  refine quantScan_done_induct (P := fun k q => k ≤ a → q.idx.read a = idx.read a) ?_ h (fun _ => rfl) (by omega)
  intro k c q q' _ hq ih hk
  obtain ⟨b, e⟩ := quantPixel_idx hq
  rw [e, Memory.read_write_ne _ _ (by omega), ih (by omega)]

/-- Settles O21: the ends of QUANT, each with the arrays it writes. -/
theorem quantFrame : Obligations.QuantFrame := by
  intro s t h
  cases exec_effect h with
  | rejected _ hrej => rw [hrej.raise_eq]; exact ⟨rfl, fun _ _ => rfl, fun _ _ => rfl⟩
  | quantDone _ hscan =>
    refine ⟨rfl, fun a ha => ?_, fun a ha => quantScan_idx hscan ha⟩
    rw [quantComplete_pix, Memory.read_dropBelow, if_neg (by omega)]
  | quantOverflow =>
    refine ⟨rfl, fun a ha => ?_, fun a ha => ?_⟩
    · rw [raise_paletteOverflow_pix, Memory.read_dropBelow, if_neg (by omega)]
    · rw [raise_paletteOverflow_idx, Memory.read_dropBelow, if_neg (by omega)]

/-- A frame of one color, once or repeated, completes with two slots and every index 1. -/
theorem quant_replicate {s : State} {n : Nat} {c : Rgb} (hf : s.fail = false) (hn : s.pixelCount ≤ s.maxPix)
    (hcs : s.frameIs (List.replicate (n + 1) c)) :
    ∃ t, exec .quant s = .next t ∧ t.err = .noError ∧ t.errInfo = 0 ∧ t.nColors = 2 ∧
      ∀ k < n + 1, t.idx.read k = some 1 := by
  have hone : (firstSeen (List.replicate (n + 1) c)).length = 1 := by rw [firstSeen_replicate, List.length_singleton]
  obtain ⟨t, hexec, -, -, he, hi, hcolors, -, -, -, -, hidx, -⟩ :=
    quantBuildsFirstSeenPalette s _ hf hn hcs (by omega)
  refine ⟨t, hexec, he, hi, BitVec.eq_of_toNat_eq (by rw [hcolors, hone]; rfl), fun k hk => ?_⟩
  rw [hidx k (by rwa [List.length_replicate]), List.getElem_replicate, slotOf_replicate]
  rfl

/-- Settles O20: the frames of no pixel and of one color under O18, and O21 for the cells of IDX on an empty frame. -/
theorem quantCornerFrames : Obligations.QuantCornerFrames := by
  intro s hf hn
  refine ⟨fun hempty => ?_, fun c hcs => ?_, fun n c hpos hcs => ?_⟩
  · have hcount : s.pixelCount = 0 := by
      rcases hempty with h | h <;> simp [State.pixelCount, h]
    obtain ⟨t, hexec, htv, hiv, he, hi, hcolors, hslot, -, hused, -⟩ :=
      quantBuildsFirstSeenPalette s [] hf hn ⟨hcount.symm, nofun⟩ (Nat.zero_le _)
    obtain ⟨-, -, hidx⟩ := quantFrame s t hexec
    refine ⟨t, hexec, he, hi, hslot, fun i hlt => ?_, BitVec.eq_of_toNat_eq hcolors, htv, hiv,
      fun a => hidx a (by omega)⟩
    rw [hused i hlt, firstSeen, List.length_nil, Nat.zero_add]
    simp only [Nat.lt_one_iff]
  · obtain ⟨t, hexec, he, hi, hcolors, hidx⟩ := quant_replicate (n := 0) hf hn hcs
    exact ⟨t, hexec, he, hi, hcolors, hidx 0 Nat.one_pos⟩
  · obtain ⟨m, rfl⟩ : ∃ m, n = m + 1 := ⟨n - 1, by omega⟩
    exact quant_replicate hf hn hcs

end Sys2Proof.Machine

/-! FINDC: the color distance, the scan for the nearest slot, and what a FINDC leaves. -/

namespace Sys2Proof.Machine

/-! ## The color distance (40_quantizer R162) -/

theorem channelDist_cast (a b : Byte) : (channelDist a b : Int) = ((a.toNat : Int) - b.toNat) ^ 2 := by
  rw [channelDist, Int.toNat_of_nonneg (mul_self_nonneg _), sq]

theorem channelDiff_range (a b : Byte) : -255 ≤ (a.toNat : Int) - b.toNat ∧ (a.toNat : Int) - b.toNat ≤ 255 := by
  have ha := a.isLt
  have hb := b.isLt
  omega

theorem channelDist_le (a b : Byte) : channelDist a b ≤ 65025 := by
  obtain ⟨hlo, hhi⟩ := channelDiff_range a b
  have h : (channelDist a b : Int) ≤ 255 ^ 2 := by
    rw [channelDist_cast]
    exact sq_le_sq' hlo hhi
  omega

theorem colorDist_le (t c : Rgb) : colorDist t c ≤ 195075 := by
  have hr := channelDist_le t.r c.r
  have hg := channelDist_le t.g c.g
  have hb := channelDist_le t.b c.b
  unfold colorDist
  omega

@[simp] theorem channelDist_self (a : Byte) : channelDist a a = 0 := by simp [channelDist]

@[simp] theorem colorDist_self (c : Rgb) : colorDist c c = 0 := by simp [colorDist]

/-- Settles O26: channel by channel, and three squares of at most 255². -/
theorem colorDistanceIsExact : Obligations.ColorDistanceIsExact := by
  intro t c
  have hle := colorDist_le t c
  refine ⟨?_, channelDiff_range _ _, channelDiff_range _ _, channelDiff_range _ _, hle, by omega, by omega⟩
  rw [colorDist, Nat.cast_add, Nat.cast_add, channelDist_cast, channelDist_cast, channelDist_cast]

/-! ## The scan -/

/-- Over slots that FINDC can read the scan gives a slot. -/
theorem nearest_isOk {s : State} (t : Rgb) {n i : Nat} (best dmin : Nat)
    (h : ∀ j, i ≤ j → j < i + n → readUsed j s = .ok false ∨ (readUsed j s = .ok true ∧ ∃ c, readSlot j s = .ok c)) :
    ∃ r, nearest s t n i best dmin = .ok r := by
  induction n generalizing i best dmin with
  | zero => exact ⟨best, rfl⟩
  | succ n ih =>
    have hrest := fun best dmin => ih (i := i + 1) best dmin fun j hj hlt => h j (by omega) (by omega)
    rcases h i le_rfl (by omega) with hu | ⟨hu, c, hc⟩
    · simpa only [nearest, hu] using hrest best dmin
    · simp only [nearest, hu, hc]
      split
      · exact hrest _ _
      · exact hrest _ _

/-- What the scan keeps from slot to slot: every slot in use below `i` is at least `dmin` away, those below the best one
farther, and the best one is that near once there is one (40_quantizer R163). -/
structure State.NearestBelow (s : State) (t : Rgb) (i best dmin : Nat) : Prop where
  bestLe : best ≤ i
  least : ∀ j d, j < i → readUsed j s = .ok true → readSlot j s = .ok d →
    dmin ≤ colorDist t d ∧ (j < best → dmin < colorDist t d)
  held : dmin = 2 ^ 24 ∨ (readUsed best s = .ok true ∧ ∃ c, readSlot best s = .ok c ∧ colorDist t c = dmin)

theorem State.nearestBelow_zero (s : State) (t : Rgb) : s.NearestBelow t 0 0 (2 ^ 24) :=
  ⟨le_rfl, nofun, .inl rfl⟩

section
variable {s : State} {t c : Rgb} {i best dmin : Nat}

theorem State.NearestBelow.unused (h : s.NearestBelow t i best dmin) (hu : readUsed i s = .ok false) :
    s.NearestBelow t (i + 1) best dmin where
  bestLe := Nat.le_succ_of_le h.bestLe
  least j d hj hju hjd := by
    rcases Nat.lt_succ_iff_lt_or_eq.mp hj with hj | rfl
    · exact h.least j d hj hju hjd
    · cases hu.symm.trans hju
  held := h.held

theorem State.NearestBelow.nearer (h : s.NearestBelow t i best dmin) (hu : readUsed i s = .ok true)
    (hc : readSlot i s = .ok c) (hlt : colorDist t c < dmin) : s.NearestBelow t (i + 1) i (colorDist t c) where
  bestLe := Nat.le_succ i
  least j d hj hju hjd := by
    rcases Nat.lt_succ_iff_lt_or_eq.mp hj with hj | rfl
    · obtain ⟨hd, -⟩ := h.least j d hj hju hjd
      omega
    · cases hc.symm.trans hjd
      exact ⟨le_rfl, fun hjj => absurd hjj (lt_irrefl j)⟩
  held := .inr ⟨hu, c, hc, rfl⟩

theorem State.NearestBelow.farther (h : s.NearestBelow t i best dmin) (hc : readSlot i s = .ok c)
    (hle : dmin ≤ colorDist t c) : s.NearestBelow t (i + 1) best dmin where
  bestLe := Nat.le_succ_of_le h.bestLe
  least j d hj hju hjd := by
    rcases Nat.lt_succ_iff_lt_or_eq.mp hj with hj | rfl
    · exact h.least j d hj hju hjd
    · cases hc.symm.trans hjd
      exact ⟨hle, fun hjb => absurd h.bestLe (Nat.not_le_of_lt hjb)⟩
  held := h.held

theorem nearest_nearestBelow {n : Nat} (h : nearest s t n 0 0 (2 ^ 24) = .ok best) :
    ∃ dmin, s.NearestBelow t n best dmin := by
  simpa only [Nat.zero_add] using nearest_ok_induct (P := s.NearestBelow t)
    (unused := fun _ _ _ hu h => h.unused hu) (nearer := fun _ _ _ _ hu hc hlt h => h.nearer hu hc hlt)
    (farther := fun _ _ _ _ _ hc hle h => h.farther hc hle) h (s.nearestBelow_zero t)

/-- Past a readable slot 0 the scan holds a slot, since every distance is below the first dmin. -/
theorem State.NearestBelow.held_of_slot_zero (h : s.NearestBelow t i best dmin) (hi : 0 < i)
    (hu : readUsed 0 s = .ok true) (hc : readSlot 0 s = .ok c) :
    readUsed best s = .ok true ∧ ∃ c, readSlot best s = .ok c ∧ colorDist t c = dmin := by
  obtain ⟨hle, -⟩ := h.least 0 c hi hu hc
  have hbound := colorDist_le t c
  exact h.held.resolve_left (by omega)

end

/-! ## The command -/

/-- Slot 0 of a readable table is in use and holds a color. -/
theorem State.tableReadable.slot_zero {s : State} (h : s.tableReadable) :
    readUsed 0 s = .ok true ∧ ∃ c, readSlot 0 s = .ok c := by
  obtain ⟨hzero, hall⟩ := h
  rcases hall 0 (by decide) with hu | hu
  · cases hzero.symm.trans hu
  · exact hu

/-- The table's invariant makes the table of TV = 1 one that FINDC can read. -/
theorem State.TableInv.tableReadable {s : State} (h : s.TableInv) (htv : s.tv = true) : s.tableReadable := by
  have hpos : 0 < s.nColors.toNat :=
    Nat.pos_of_ne_zero fun h0 => h.tvIffColors.mp htv (BitVec.eq_of_toNat_eq h0)
  refine ⟨(h.usedIff htv 0 (by decide)).trans (by rw [decide_eq_true hpos]), fun i hi => ?_⟩
  by_cases hlt : i < s.nColors.toNat
  · have hcell : ∀ d < 3, ∃ b, s.ct.read (3 * i + d) = some b := fun d hd =>
      Option.isSome_iff_exists.mp ((h.slotIff htv _ (by omega)).trans (decide_eq_true (by omega)))
    obtain ⟨r, hr⟩ := hcell 0 (by decide)
    obtain ⟨g, hg⟩ := hcell 1 (by decide)
    obtain ⟨b, hb⟩ := hcell 2 (by decide)
    exact .inr ⟨(h.usedIff htv i hi).trans (by rw [decide_eq_true hlt]), ⟨r, g, b⟩, readRgb_ok.mpr ⟨hr, hg, hb⟩⟩
  · exact .inl ((h.usedIff htv i hi).trans (by rw [decide_eq_false hlt]))

/-- With a table it can read, FINDC completes with the slot its scan gives. -/
theorem execFindc_of_tableReadable {s : State} (hf : s.fail = false) (htv : s.tv = true) (h : s.tableReadable) :
    ∃ best, nearest s s.target 256 0 0 (2 ^ 24) = .ok best ∧
      execFindc s = .next (complete { s with fcResult := slotResult best }) := by
  obtain ⟨-, hall⟩ := h
  obtain ⟨r, hr⟩ := nearest_isOk s.target (n := 256) (i := 0) 0 (2 ^ 24) fun j _ hj => hall j (by omega)
  rcases execFindc_cases s with ⟨hf', -⟩ | ⟨-, htv', -⟩ | ⟨-, -, ⟨f, hn, -⟩ | hdone⟩
  · cases hf.symm.trans hf'
  · cases htv.symm.trans htv'
  · cases hr.symm.trans hn
  · exact hdone

/-- Without a table FINDC completes with the no-table result. -/
theorem execFindc_of_no_table {s : State} (hf : s.fail = false) (htv : s.tv = false) :
    execFindc s = .next (complete { s with fcResult := noTableResult }) := by
  rcases execFindc_cases s with ⟨hf', -⟩ | ⟨-, -, e⟩ | ⟨-, htv', -⟩
  · cases hf.symm.trans hf'
  · exact e
  · cases htv.symm.trans htv'

/-- PALETTE_OVERFLOW and SINK_FAIL leave no table. -/
theorem CommandEffect.no_table_of_err {s t : State} {i : Instr} (h : CommandEffect s i t)
    (he : t.err = .paletteOverflow ∨ t.err = .sinkFail) : t.tv = false := by
  cases h with
  | rejected _ h => rw [h.raise_eq] at he; cases h <;> simp at he
  | reset => rfl
  | quantDone => simp at he
  | quantOverflow => rfl
  | findc => simp at he
  | encodeDone => simp [encodeComplete] at he
  | encodeSinkFail => rfl

/-- Settles O24: the no-table branch of FINDC, and the ends of a command that leave no table. -/
theorem findcWithoutTable : Obligations.FindcWithoutTable := by
  refine ⟨fun s hf htv => ⟨_, execFindc_of_no_table hf htv, rfl, rfl⟩, rfl, ?_, ?_⟩
  · intro s t h
    cases h
    rfl
  · intro s t i h
    exact (exec_effect h).no_table_of_err

/-- Settles O25: what the scan keeps, read off after the last slot. -/
theorem findcNearestLowestSlot : Obligations.FindcNearestLowestSlot := by
  intro s hf htv htab
  obtain ⟨best, hbest, e⟩ := execFindc_of_tableReadable hf htv htab
  obtain ⟨dmin, hnear⟩ := nearest_nearestBelow hbest
  obtain ⟨hzero, c₀, hc₀⟩ := htab.slot_zero
  obtain ⟨hu, c, hc, rfl⟩ := hnear.held_of_slot_zero (by decide) hzero hc₀
  exact ⟨best, c, nearest_lt hbest, hu, hc, e, hnear.least⟩

/-- Settles O27: slot 0 is at distance 0, and a slot above it would have to be nearer. -/
theorem findcSentinelTargetGivesSlotZero : Obligations.FindcSentinelTargetGivesSlotZero := by
  intro s hf htv htab hslot htarget
  obtain ⟨best, c, -, -, -, e, hleast⟩ := findcNearestLowestSlot s hf htv htab
  obtain ⟨hused, -⟩ := htab.slot_zero
  obtain ⟨-, hstrict⟩ := hleast 0 _ (by decide) hused hslot
  have hsame : s.target = ⟨105, 105, 105⟩ := by
    rw [State.target, htarget]
    rfl
  rw [hsame, colorDist_self] at hstrict
  have hzero : best = 0 := Nat.eq_zero_of_not_pos fun hpos => absurd (hstrict hpos) (Nat.not_lt_zero _)
  rw [e, hzero]
  rfl

/-- Settles O28: with TV = 1 the invariant makes the table readable, and with TV = 0 nothing is read. -/
theorem findcCompletesUnderTableInv : Obligations.FindcCompletesUnderTableInv := by
  intro s hf hinv
  cases htv : s.tv with
  | false => exact ⟨_, execFindc_of_no_table hf htv, rfl⟩
  | true =>
    obtain ⟨best, -, e⟩ := execFindc_of_tableReadable hf htv (hinv.tableReadable htv)
    exact ⟨_, e, rfl⟩

/-- Settles O29: FINDC is rejected as FAILED or completes, and both write these fields alone. -/
theorem findcFrame : Obligations.FindcFrame := by
  intro s t h
  cases exec_effect h with
  | rejected _ hrej => rw [hrej.raise_eq]
  | findc => rfl

end Sys2Proof.Machine

/-! ENCODE's ends and its frame. -/

namespace Sys2Proof.Machine

/-- The run phase completes when the sink accepts every byte. -/
theorem encodeRun_of_accept {s : State} (m : Nat) {bytes : List Byte}
    (hacc : ∀ j < bytes.length, s.sink.answerAt j = .accept) :
    encodeRun m bytes s =
      .next (encodeComplete (encodeProgress m bytes.length (s.sink.after bytes bytes.length) s)) := by
  rcases encodeRun_cases m bytes s with ⟨-, e⟩ | ⟨j, hj, -, hrej, -⟩ | ⟨j, hj, -, hsil, -⟩
  · exact e
  · rw [hacc j hj] at hrej
    cases hrej
  · rw [hacc j hj] at hsil
    cases hsil

/-- Settles O30: past the checks the run phase offers the image data, and the sink takes all of it. -/
theorem encodeCompletes : Obligations.EncodeCompletes := by
  intro s scs hdr ids hf hn hscs hiv hids hclear hacc
  refine ⟨_, (execEncode_eq_run hdr hf hn hscs hiv hids hclear).trans (encodeRun_of_accept _ hacc), rfl, rfl, ?_, ?_,
    fun a => s.idx.read_dropBelow s.pixelCount a⟩
  · intro hlt
    rw [encodeComplete_encBytes, encodeProgress_encBytes, encByteCount_of_lt hlt, BitVec.toNat_ofNat,
      Nat.mod_eq_of_lt hlt]
  · rw [encodeComplete_encMcs, encodeProgress_encMcs, BitVec.toNat_ofNat]
    omega

/-- Settles O33: ENCODE is rejected by a check, completes, or ends with SINK_FAIL. -/
theorem encodeFrame : Obligations.EncodeFrame := by
  intro s t scs hdr h
  have heffect := exec_effect h
  obtain ⟨hgrows, -⟩ := heffect.history
  have hdrop : ∀ a, s.pixelCount ≤ a → (s.idx.dropBelow s.pixelCount).read a = s.idx.read a := fun a ha => by
    rw [Memory.read_dropBelow, if_neg (Nat.not_lt.mpr ha)]
  cases heffect with
  | rejected _ hrej =>
    rw [hrej.raise_eq] at hgrows ⊢
    exact ⟨rfl, fun _ _ => rfl, hgrows, fun _ => ⟨rfl, rfl, rfl, rfl, rfl⟩⟩
  | encodeDone => exact ⟨rfl, hdrop, hgrows, fun _ => ⟨rfl, rfl, rfl, rfl, rfl⟩⟩
  | encodeSinkFail => exact ⟨rfl, hdrop, hgrows, absurd rfl⟩

/-- SCS below the smallest minCodeSize is no other than that size (41_lzw_encoder R182, R201). -/
theorem execEncode_of_le_two {scs : Nat} (h : scs ≤ 2) (hdr : Bool) (s : State) :
    execEncode scs hdr s = execEncode 2 hdr s := by
  have hmcs : minCodeSize scs = minCodeSize 2 := max_eq_left h
  have hlegal : ¬Config.maxScs < scs := Nat.not_lt.mpr (h.trans (by decide))
  have hlegal2 : ¬Config.maxScs < 2 := by decide
  simp only [execEncode, hmcs, if_neg hlegal, if_neg hlegal2]

/-- Settles O35: 0 and 1 are at most 2. -/
theorem smallScsActAsTwo : Obligations.SmallScsActAsTwo :=
  fun s hdr => ⟨execEncode_of_le_two (by decide) hdr s, execEncode_of_le_two (by decide) hdr s⟩

/-! ## OutputCode and the packet -/

/-- Settles O36: the width OutputCode leaves is the update of the one before it. -/
theorem outputCodeUpdatesWidth : Obligations.OutputCodeUpdatesWidth := by
  intro m code z
  obtain ⟨hdict, hfree, hbits, hflag⟩ := outputCode_fields m code z
  exact ⟨hbits, hflag, hfree, hdict⟩

theorem flushPacket_of_nil {z : Lzw} (h : z.pkt = []) : flushPacket z = z :=
  if_neg (by simp [h])

theorem flushPacket_of_ne_nil {z : Lzw} (h : z.pkt ≠ []) :
    flushPacket z = { z with pkt := [], out := z.out ++ BitVec.ofNat 8 z.pkt.length :: z.pkt } :=
  if_pos (List.length_pos_iff.mpr h)

/-- Settles O37: CharOut by the length of the packet, FlushPacket by whether it is empty. -/
theorem packetsFlushAtTwoHundredFiftyFour : Obligations.PacketsFlushAtTwoHundredFiftyFour := by
  refine ⟨fun b z hlen => ?_, fun b z hlen => ?_, fun z hnil => flushPacket_of_nil hnil, fun z hne hlen => ?_⟩
  · have hroom : ¬z.pkt.length + 1 = Config.pktMax := Nat.ne_of_lt (by unfold Config.pktMax; omega)
    rw [charOut, if_neg hroom]
  · have hfull : z.pkt.length + 1 = Config.pktMax := congrArg (· + 1) hlen
    rw [charOut, if_pos hfull, flushPacket_of_ne_nil (by simp)]
    simp [hlen]
  · exact ⟨BitVec.ofNat 8 z.pkt.length, by rw [BitVec.toNat_ofNat]; omega, flushPacket_of_ne_nil hne⟩

end Sys2Proof.Machine

/-! The hash table of 41_lzw_encoder R195 against the exact map. -/

namespace Sys2Proof.Machine

/-- The slot a probe reaches after `n` steps. -/
def probeSlot (disp i n : Nat) : Nat := (hashNext disp)^[n] i

theorem probeSlot_succ (disp i n : Nat) : probeSlot disp i (n + 1) = probeSlot disp (hashNext disp i) n := rfl

/-! ## The pair's key and its first slot -/

/-- A key names its pair. -/
theorem hashKey_inj {ent ent' c c' : Nat} (hc : c < 256) (hc' : c' < 256) (h : hashKey ent c = hashKey ent' c') :
    (ent, c) = (ent', c') := by
  have hkey : ∀ e d, d < 256 → hashKey e d = e * 4096 + d := fun e d hd => by
    rw [hashKey, ← Nat.shiftLeft_add_eq_or_of_lt (show d < 2 ^ 12 by omega), Nat.shiftLeft_eq]
  rw [hkey ent c hc, hkey ent' c' hc'] at h
  simp only [Prod.mk.injEq]
  omega

theorem hashHome_lt {ent c : Nat} (hent : ent < 4096) (hc : c < 256) : hashHome ent c < 5003 := by
  have hshift : c <<< Config.hShift < 2 ^ 12 := by
    rw [Config.hShift, Nat.shiftLeft_eq]
    omega
  exact (Nat.xor_lt_two_pow hshift hent).trans (by decide)

theorem hashDisp_range {home : Nat} (h : home < 5003) : 0 < hashDisp home ∧ hashDisp home < 5003 := by
  unfold hashDisp Config.hSize
  split <;> omega

/-! ## The probe visits every slot -/

theorem hashNext_lt {disp i : Nat} (hd : disp ≤ 5003) (hi : i < 5003) : hashNext disp i < 5003 := by
  unfold hashNext Config.hSize
  split <;> omega

theorem hashNext_cast {disp i : Nat} (hd : disp ≤ 5003) : (hashNext disp i : ZMod 5003) = i - disp := by
  unfold hashNext Config.hSize
  split
  · have hzero : ((5003 : Nat) : ZMod 5003) = 0 := ZMod.natCast_self 5003
    rw [Nat.cast_sub (by omega), Nat.cast_add, hzero, add_zero]
  · rw [Nat.cast_sub (by omega)]

theorem probeSlot_lt {disp : Nat} (hd : disp ≤ 5003) {i : Nat} (hi : i < 5003) (n : Nat) :
    probeSlot disp i n < 5003 := by
  induction n generalizing i with
  | zero => exact hi
  | succ n ih => rw [probeSlot_succ]; exact ih (hashNext_lt hd hi)

theorem probeSlot_cast {disp : Nat} (hd : disp ≤ 5003) (i n : Nat) :
    (probeSlot disp i n : ZMod 5003) = i - n * disp := by
  induction n generalizing i with
  | zero => simp [probeSlot]
  | succ n ih =>
    rw [probeSlot_succ, ih, hashNext_cast hd]
    push_cast
    ring

/-- The number of slots is prime, so that no step runs into its own path before every slot has been probed. -/
theorem exists_probeSlot_eq {disp i slot : Nat} (hd0 : 0 < disp) (hd : disp < 5003) (hi : i < 5003)
    (hslot : slot < 5003) : ∃ n < 5003, probeSlot disp i n = slot := by
  have hprime : Fact (Nat.Prime 5003) := ⟨by norm_num⟩
  have hunit : (disp : ZMod 5003) ≠ 0 := fun h0 =>
    absurd (Nat.le_of_dvd hd0 ((ZMod.natCast_eq_zero_iff disp 5003).mp h0)) (Nat.not_le_of_lt hd)
  have hn : ((((i - slot) / disp : ZMod 5003).val : Nat) : ZMod 5003) = (i - slot) / disp := ZMod.natCast_zmod_val _
  refine ⟨((i - slot) / disp : ZMod 5003).val, ZMod.val_lt _, ?_⟩
  have hcast : (probeSlot disp i ((i - slot) / disp : ZMod 5003).val : ZMod 5003) = slot := by
    rw [probeSlot_cast hd.le, hn, div_mul_cancel₀ _ hunit, sub_sub_cancel]
  have hmod := (ZMod.natCast_eq_natCast_iff' _ _ _).mp hcast
  rwa [Nat.mod_eq_of_lt (probeSlot_lt hd.le hi _), Nat.mod_eq_of_lt hslot] at hmod

/-! ## What a probe finds -/

section

variable {t : HashTable} {key disp fuel i slot code : Nat}

theorem hashProbe_of_held {k v : Nat} (h : t[i]? = some (some (k, v))) :
    hashProbe t key disp (fuel + 1) i = if k = key then .hit v i else hashProbe t key disp fuel (hashNext disp i) := by
  rw [hashProbe, h]

/-- A hit is at a slot that holds the key and the code. -/
theorem hashProbe_hit (h : hashProbe t key disp fuel i = .hit code slot) : t[slot]? = some (some (key, code)) := by
  fun_induction hashProbe t key disp fuel i with
  | case1 | case4 | case5 => cases h
  | case2 fuel i v hi => cases h; exact hi
  | case3 fuel i k v hi hne ih => exact ih h

/-- A miss is at a free slot. -/
theorem hashProbe_miss (h : hashProbe t key disp fuel i = .miss slot) : t[slot]? = some none := by
  fun_induction hashProbe t key disp fuel i with
  | case1 | case2 | case5 => cases h
  | case3 fuel i k v hi hne ih => exact ih h
  | case4 fuel i hi => cases h; exact hi

/-- A probe that no slot ends has met no free slot. -/
theorem hashProbe_full (h : hashProbe t key disp fuel i = .full) (hin : ∀ n < fuel, probeSlot disp i n < t.length) :
    ∀ n < fuel, t[probeSlot disp i n]? ≠ some none := by
  fun_induction hashProbe t key disp fuel i with
  | case1 => nofun
  | case2 | case4 => cases h
  | case3 fuel i k v hi hne ih =>
    intro n hn
    cases n with
    | zero => rw [show probeSlot disp i 0 = i from rfl, hi]; nofun
    | succ n => exact ih h (fun n hn => hin (n + 1) (by omega)) n (by omega)
  | case5 fuel i hi => exact absurd (hin 0 (Nat.succ_pos _)) (Nat.not_lt.mpr (List.getElem?_eq_none_iff.mp hi))

/-- A slot that holds a pair is not the free one that is filled. -/
theorem getElem?_set_of_held {free k v : Nat} {x : HashSlot} (hfree : t[free]? = some none)
    (hi : t[i]? = some (some (k, v))) : (t.set free x)[i]? = some (some (k, v)) := by
  have hne : free ≠ i := by
    rintro rfl
    rw [hi] at hfree
    cases hfree
  rw [List.getElem?_set_ne hne, hi]

/-- Filling a free slot is not seen by a probe that hits. -/
theorem hashProbe_set_of_hit {free : Nat} {x : HashSlot} (h : hashProbe t key disp fuel i = .hit code slot)
    (hfree : t[free]? = some none) : hashProbe (t.set free x) key disp fuel i = .hit code slot := by
  fun_induction hashProbe t key disp fuel i with
  | case1 | case4 | case5 => cases h
  | case2 fuel i v hi => rw [hashProbe_of_held (getElem?_set_of_held hfree hi), if_pos rfl, h]
  | case3 fuel i k v hi hne ih => rw [hashProbe_of_held (getElem?_set_of_held hfree hi), if_neg hne, ih h]

/-- A key stored where its probe ended is found there. -/
theorem hashProbe_set_of_miss (h : hashProbe t key disp fuel i = .miss slot) :
    hashProbe (t.set slot (some (key, code))) key disp fuel i = .hit code slot := by
  have hfree := hashProbe_miss h
  fun_induction hashProbe t key disp fuel i with
  | case1 | case2 | case5 => cases h
  | case3 fuel i k v hi hne ih => rw [hashProbe_of_held (getElem?_set_of_held hfree hi), if_neg hne, ih h]
  | case4 fuel i hi =>
    cases h
    rw [hashProbe_of_held (List.getElem?_set_self (List.getElem?_eq_some_iff.mp hi).1), if_pos rfl]

end

/-! ## The table that holds a map -/

/-- The table holds exactly these pairs with their codes, and free slots beside them. -/
structure HashTable.Holds (t : HashTable) (entries : List ((Nat × Nat) × Nat)) : Prop where
  size : t.length = 5003
  free : 5003 ≤ t.count none + entries.length
  held : ∀ (slot key code : Nat), t[slot]? = some (some (key, code)) → ∃ e ∈ entries, hashKey e.1.1 e.1.2 = key
  found : ∀ e ∈ entries, ∃ slot, hashLookup t e.1.1 e.1.2 = .hit e.2 slot

theorem emptyTable_holds : HashTable.Holds emptyTable [] where
  size := List.length_replicate
  free := by
    have hcount : emptyTable.count none = 5003 := List.count_replicate_self
    omega
  held slot key code h := by
    have hmem := List.mem_of_getElem? h
    exact absurd (List.eq_of_mem_replicate hmem) nofun
  found := nofun

section

variable {t : HashTable} {entries : List ((Nat × Nat) × Nat)} {ent c slot : Nat}

/-- With a free slot left the probe ends, since it visits every slot. -/
theorem HashTable.Holds.lookup_ne_full (h : HashTable.Holds t entries) (hlen : entries.length ≤ 4090)
    (hent : ent < 4096) (hc : c < 256) : hashLookup t ent c ≠ .full := by
  intro hfull
  have hhome := hashHome_lt hent hc
  obtain ⟨hd0, hd⟩ := hashDisp_range hhome
  have hpos : 0 < t.count none := by have := h.free; omega
  obtain ⟨slot, hslot, hnone⟩ := List.getElem_of_mem (List.count_pos_iff.mp hpos)
  obtain ⟨n, hn, rfl⟩ := exists_probeSlot_eq hd0 hd hhome (h.size ▸ hslot)
  exact hashProbe_full hfull (fun n _ => h.size ▸ probeSlot_lt hd.le hhome n) n hn
    (List.getElem?_eq_some_iff.mpr ⟨hslot, hnone⟩)

/-- A pair that has not been inserted ends at a free slot. -/
theorem HashTable.Holds.lookup_miss (h : HashTable.Holds t entries) (hlen : entries.length ≤ 4090)
    (hrange : ∀ e ∈ entries, e.1.1 < 4096 ∧ e.1.2 < 256) (hent : ent < 4096) (hc : c < 256)
    (hnew : (ent, c) ∉ entries.map Prod.fst) :
    ∃ slot, hashLookup t ent c = .miss slot := by
  match hl : hashLookup t ent c with
  | .full => exact absurd hl (h.lookup_ne_full hlen hent hc)
  | .miss slot => exact ⟨slot, rfl⟩
  | .hit code slot =>
    obtain ⟨e, he, hkey⟩ := h.held _ _ _ (hashProbe_hit hl)
    exact absurd (List.mem_map.mpr ⟨e, he, hashKey_inj (hrange e he).2 hc hkey⟩) hnew

/-- An insert of a new pair (41_lzw_encoder R186, R195). -/
theorem HashTable.Holds.add (h : HashTable.Holds t entries) (code : Nat) (hmiss : hashLookup t ent c = .miss slot) :
    HashTable.Holds (hashAdd t ent c code) (entries ++ [((ent, c), code)]) := by
  have hadd : hashAdd t ent c code = t.set slot (some (hashKey ent c, code)) := by rw [hashAdd, hmiss]; rfl
  have hfree : t[slot]? = some none := hashProbe_miss hmiss
  obtain ⟨hslot, hnone⟩ := List.getElem?_eq_some_iff.mp hfree
  rw [hadd]
  refine { size := by rw [List.length_set, h.size], free := ?_, held := ?_, found := ?_ }
  · have := h.free
    rw [List.count_set hslot, hnone, List.length_append, List.length_singleton, if_pos (beq_self_eq_true none)]
    omega
  · intro i key v hi
    rw [List.getElem?_set] at hi
    split at hi
    · simp only [Option.some.injEq, Prod.mk.injEq] at hi
      exact ⟨((ent, c), code), by simp, hi.1⟩
    · obtain ⟨e, he, hkey⟩ := h.held i key v hi
      exact ⟨e, List.mem_append_left _ he, hkey⟩
  · intro e he
    rcases List.mem_append.mp he with he | he
    · obtain ⟨i, hi⟩ := h.found e he
      exact ⟨i, hashProbe_set_of_hit hi hfree⟩
    · obtain rfl := List.mem_singleton.mp he
      exact ⟨slot, hashProbe_set_of_miss hmiss⟩

theorem hashFill_holds (hlen : entries.length ≤ 4090) (hnodup : (entries.map Prod.fst).Nodup)
    (hrange : ∀ e ∈ entries, e.1.1 < 4096 ∧ e.1.2 < 256) :
    HashTable.Holds (Spec.hashFill entries) entries := by
  induction entries using List.reverseRecOn with
  | nil => exact emptyTable_holds
  | append_singleton entries e ih =>
    rw [List.length_append, List.length_singleton] at hlen
    rw [List.map_append, List.nodup_append] at hnodup
    obtain ⟨hnodup, -, hnew⟩ := hnodup
    have hrange' : ∀ d ∈ entries, d.1.1 < 4096 ∧ d.1.2 < 256 := fun d hd => hrange d (List.mem_append_left _ hd)
    obtain ⟨hent, hc⟩ := hrange e (by simp)
    have h := ih (by omega) hnodup hrange'
    obtain ⟨slot, hmiss⟩ := h.lookup_miss (by omega) hrange' hent hc (fun hmem => hnew _ hmem e.1 (by simp) rfl)
    rw [Spec.hashFill, List.foldl_append]
    exact h.add e.2 hmiss

end

/-- Settles O43: the filled table holds its entries, and nothing else is found in it. -/
theorem hashTableIsExactMap : Obligations.HashTableIsExactMap := by
  intro entries ent c hlen hnodup hrange hent hc
  have h := hashFill_holds hlen hnodup hrange
  refine ⟨fun v hv => ?_, fun hnone => ?_⟩
  · obtain ⟨before, after, hsplit, -⟩ := List.lookup_eq_some_iff.mp hv
    exact h.found ((ent, c), v) (by simp [hsplit])
  · have hnew : (ent, c) ∉ entries.map Prod.fst := by
      intro hmem
      obtain ⟨e, he, hkey⟩ := List.mem_map.mp hmem
      simpa [hkey] using List.lookup_eq_none_iff.mp hnone e he
    obtain ⟨slot, hmiss⟩ := h.lookup_miss hlen hrange hent hc hnew
    obtain ⟨hslot, -⟩ := List.getElem?_eq_some_iff.mp (hashProbe_miss hmiss)
    exact ⟨slot, h.size ▸ hslot, hmiss⟩

end Sys2Proof.Machine

/-! Codes that fit their widths (41_lzw_encoder R196). -/

namespace Sys2Proof.Spec

/-- A code that has been assigned fits the width in use. -/
theorem lt_two_pow_codeWidth {m j code : Nat} (hm : m ≤ 8) (hj : 2 ^ m + 2 + j ≤ 4096) (h : code < 2 ^ m + 2 + j) :
    code < 2 ^ codeWidth m j := by
  obtain ⟨hge, hle⟩ := codeWidth_range (show m ≤ 11 by omega) j
  by_cases h12 : codeWidth m j < 12
  · exact h.trans_le ((codeWidth_le_iff hge h12).mp le_rfl)
  · rw [show codeWidth m j = 12 by omega]
    exact h.trans_le hj

/-- A code with its width is one the stream may hold: no bit of it is lost. -/
def Fits (m : Nat) (cw : Nat × Nat) : Prop := cw.1 < 2 ^ cw.2 ∧ m + 1 ≤ cw.2 ∧ cw.2 ≤ 12

/-- CLEAR and EOI fit every width in use. -/
theorem fits_of_le_eoi {m code w : Nat} (hm2 : 2 ≤ m) (hcode : code ≤ 2 ^ m + 1) (hge : m + 1 ≤ w) (hle : w ≤ 12) :
    Fits m (code, w) := by
  have hlt := Machine.eoiCode_lt_two_pow hm2 hge
  rw [Machine.eoiCode_eq] at hlt
  exact ⟨hcode.trans_lt hlt, hge, hle⟩

theorem fits_codeWidth {m j code : Nat} (hm : m ≤ 8) (hj : 2 ^ m + 2 + j ≤ 4096) (h : code < 2 ^ m + 2 + j) :
    Fits m (code, codeWidth m j) :=
  ⟨lt_two_pow_codeWidth hm hj h, codeWidth_range (by omega) j⟩

/-- By induction on the indices still to come: the current string's code and every code of the dictionary have been
assigned. -/
theorem fits_of_mem_codesFrom {m : Nat} (hm2 : 2 ≤ m) (hm : m ≤ 8) {cs : List Byte} (hcs : ∀ b ∈ cs, b.toNat < 2 ^ m)
    {ent j : Nat} {dict : List ((Nat × Nat) × Nat)} (hj : 2 ^ m + 2 + j ≤ 4096) (hent : ent < 2 ^ m + 2 + j)
    (hdict : ∀ key v, dict.lookup key = some v → v < 2 ^ m + 2 + j) :
    ∀ cw ∈ codesFrom m cs ent dict j, Fits m cw := by
  induction cs generalizing ent j dict with
  | nil =>
    obtain ⟨hge, hle⟩ := codeWidth_range (show m ≤ 11 by omega) (j + 1)
    simp only [codesFrom, List.forall_mem_cons, List.not_mem_nil]
    exact ⟨fits_codeWidth hm hj hent, fits_of_le_eoi hm2 le_rfl hge hle, nofun⟩
  | cons c cs ih =>
    obtain ⟨hc, hcs'⟩ := List.forall_mem_cons.mp hcs
    cases hv : dict.lookup (ent, c.toNat) with
    | some v =>
      simp only [codesFrom, hv]
      exact ih hcs' hj (hdict _ v hv) hdict
    | none =>
      simp only [codesFrom, hv]
      refine List.forall_mem_cons.mpr ⟨fits_codeWidth hm hj hent, ?_⟩
      split_ifs with hroom
      · refine ih hcs' (by omega) (by omega) (fun key v hkey => ?_)
        rw [List.lookup_cons] at hkey
        split at hkey
        · cases hkey
          omega
        · exact Nat.lt_succ_of_lt (hdict key v hkey)
      · have hle := Nat.pow_le_pow_right (n := 2) (by decide) hm
        exact List.forall_mem_cons.mpr ⟨fits_of_le_eoi hm2 (by omega) (by omega) le_rfl,
          ih hcs' (by omega) (by omega) nofun⟩

theorem fits_of_mem_codeStream {m : Nat} (hm2 : 2 ≤ m) (hm : m ≤ 8) {ids : List Byte}
    (hids : ∀ b ∈ ids, b.toNat < 2 ^ m) : ∀ cw ∈ codeStream m ids, Fits m cw := by
  have hle := Nat.pow_le_pow_right (n := 2) (by decide) hm
  have hclear : Fits m (2 ^ m, m + 1) := fits_of_le_eoi hm2 (by omega) le_rfl (by omega)
  cases ids with
  | nil =>
    rw [codeStream_nil hm2 hm]
    exact List.forall_mem_cons.mpr ⟨hclear, List.forall_mem_cons.mpr
      ⟨fits_of_le_eoi hm2 le_rfl le_rfl (by omega), nofun⟩⟩
  | cons c cs =>
    obtain ⟨hc, hcs⟩ := List.forall_mem_cons.mp hids
    rw [codeStream_cons]
    exact List.forall_mem_cons.mpr ⟨hclear, fits_of_mem_codesFrom hm2 hm hcs (by omega) (by omega) nofun⟩

/-- Settles O39: CLEAR, EOI and the codes assigned so far fit their widths. -/
theorem noCodeIsTruncated : Obligations.NoCodeIsTruncated :=
  fun _ _ hm2 hm hids => fits_of_mem_codeStream hm2 hm hids

end Sys2Proof.Spec

/-! The round trip of 41_lzw_encoder R200: the decoder undoes the framing, the packing and the code stream. -/

namespace Sys2Proof.Spec

/-! ## Sub-blocks back to the payload -/

theorem subBlocks_nil : subBlocks [] = [] := rfl

theorem subBlocks_of_short {p : List Byte} (h0 : p ≠ []) (h : p.length < 254) :
    subBlocks p = BitVec.ofNat 8 p.length :: p := by
  have hpos := List.length_pos_iff.mpr h0
  have hdiv := Nat.div_eq_of_lt h
  rw [subBlocks, hdiv, Nat.mod_eq_of_lt h, if_neg (by omega)]
  simp

theorem subBlocks_of_long {p : List Byte} (h : 254 ≤ p.length) :
    subBlocks p = 254#8 :: (p.take 254 ++ subBlocks (p.drop 254)) := by
  have hdiv : p.length / 254 = (p.length - 254) / 254 + 1 := by omega
  have hmod : p.length % 254 = (p.length - 254) % 254 := by omega
  simp only [subBlocks, List.length_drop, hdiv, hmod, List.range_succ_eq_map, List.flatMap_cons, List.flatMap_map,
    Nat.mul_succ, Nat.mul_zero, List.drop_zero, List.drop_drop, Nat.add_comm 254, List.cons_append, List.append_assoc]

theorem unframe_terminator (fuel : Nat) : unframe (fuel + 1) [0] = some [] := rfl

theorem unframe_block {len : Byte} {block : List Byte} (hlen : len.toNat = block.length) (hne : block ≠ [])
    (fuel : Nat) (rest : List Byte) :
    unframe (fuel + 1) (len :: (block ++ rest)) = (unframe fuel rest).map (block ++ ·) := by
  have hlen0 : len ≠ 0 := by
    rintro rfl
    exact hne (List.eq_nil_of_length_eq_zero hlen.symm)
  have hfits : ¬(block ++ rest).length < len.toNat := by rw [List.length_append, hlen]; omega
  rw [unframe, if_neg hlen0, if_neg hfits, hlen, List.drop_left, List.take_left]

/-- The payload of a sub-block series and its terminator. -/
theorem unframe_subBlocks {fuel : Nat} {p : List Byte} (h : p.length < fuel) :
    unframe fuel (subBlocks p ++ [0]) = some p := by
  induction fuel generalizing p with
  | zero => exact absurd h (Nat.not_lt_zero _)
  | succ fuel ih =>
    by_cases hnil : p = []
    · rw [hnil, subBlocks_nil, List.nil_append, unframe_terminator]
    have hpos := List.length_pos_iff.mpr hnil
    by_cases hshort : p.length < 254
    · have hlen : (BitVec.ofNat 8 p.length).toNat = p.length := by rw [BitVec.toNat_ofNat]; omega
      obtain ⟨fuel, rfl⟩ : ∃ k, fuel = k + 1 := ⟨fuel - 1, by omega⟩
      rw [subBlocks_of_short hnil hshort, List.cons_append, unframe_block hlen hnil, unframe_terminator]
      simp
    · have htake : (p.take 254).length = 254 := by rw [List.length_take]; omega
      have hlen : (254#8).toNat = (p.take 254).length := htake.symm
      have hne : p.take 254 ≠ [] := List.length_pos_iff.mp (by omega)
      rw [subBlocks_of_long (by omega), List.cons_append, List.append_assoc, unframe_block hlen hne,
        ih (by rw [List.length_drop]; omega)]
      simp

/-! ## The payload back to bits -/

theorem codeBits_succ (code width : Nat) :
    codeBits (code, width + 1) = code.testBit 0 :: codeBits (code / 2, width) := by
  simp [codeBits, List.range_succ_eq_map, Function.comp_def, Nat.testBit_succ]

/-- A number's bits, and zero bits above them. -/
theorem codeBits_bitsToNat (bits : List Bool) (k : Nat) :
    codeBits (bitsToNat bits, bits.length + k) = bits ++ List.replicate k false := by
  induction bits with
  | nil => simp [codeBits, bitsToNat, List.map_const']
  | cons b bits ih =>
    have hbit : (b.toNat + 2 * bitsToNat bits).testBit 0 = b := by cases b <;> simp [Nat.testBit_zero]
    have hhalf : (b.toNat + 2 * bitsToNat bits) / 2 = bitsToNat bits := by have := b.toNat_lt; omega
    rw [List.length_cons, Nat.add_right_comm, codeBits_succ, bitsToNat, hbit, hhalf, ih, List.cons_append]

theorem payloadBits_append (p q : List Byte) : payloadBits (p ++ q) = payloadBits p ++ payloadBits q :=
  List.flatMap_append

/-- A byte's bits are its number's. -/
theorem payloadBits_singleton (b : Byte) : payloadBits [b] = codeBits (b.toNat, 8) := List.append_nil _

theorem payloadBits_packBits_of_le_eight {bits : List Bool} (h0 : 0 < bits.length) (h8 : bits.length ≤ 8) :
    payloadBits (packBits bits) = bits ++ List.replicate (8 - bits.length) false := by
  have hbyte : (BitVec.ofNat 8 (bitsToNat bits)).toNat = bitsToNat bits :=
    Nat.mod_eq_of_lt ((bitsToNat_lt bits).trans_le (Nat.pow_le_pow_right (by decide) h8))
  rw [packBits_of_length_le_eight h0 h8, payloadBits_singleton, hbyte, ← codeBits_bitsToNat,
    Nat.add_sub_cancel' h8]

/-- Whole bytes come back as they were. -/
theorem payloadBits_packBits_of_whole {n : Nat} {whole : List Bool} (h : whole.length = 8 * n) :
    payloadBits (packBits whole) = whole := by
  induction n generalizing whole with
  | zero =>
    obtain rfl : whole = [] := List.eq_nil_of_length_eq_zero h
    rfl
  | succ n ih =>
    have hbyte : (whole.take 8).length = 8 := by rw [List.length_take]; omega
    conv_lhs => rw [← List.take_append_drop 8 whole]
    rw [packBits_append (by rw [hbyte]), payloadBits_append, payloadBits_packBits_of_le_eight (by omega) hbyte.le,
      ih (by rw [List.length_drop]; omega), hbyte]
    simp

/-- The packed bits come back, the last byte's padding after them (20_memory R100). -/
theorem exists_payloadBits_packBits (bits : List Bool) : ∃ pad, payloadBits (packBits bits) = bits ++ pad := by
  have hwhole : (bits.take (8 * (bits.length / 8))).length = 8 * (bits.length / 8) := by
    rw [List.length_take]
    omega
  by_cases hrest : bits.length % 8 = 0
  · exact ⟨[], by rw [payloadBits_packBits_of_whole (n := bits.length / 8) (by omega), List.append_nil]⟩
  · refine ⟨List.replicate (8 - (bits.drop (8 * (bits.length / 8))).length) false, ?_⟩
    conv_lhs => rw [← List.take_append_drop (8 * (bits.length / 8)) bits]
    rw [packBits_append (by rw [hwhole]; exact Nat.dvd_mul_right _ _), payloadBits_append,
      payloadBits_packBits_of_whole hwhole, payloadBits_packBits_of_le_eight (by rw [List.length_drop]; omega)
        (by rw [List.length_drop]; omega), ← List.append_assoc, List.take_append_drop]

/-! ## One code -/

section

variable {m code width fuel : Nat} {table : List (List Byte)} {last : Option (List Byte)}

/-- Reading the next code takes its bits and leaves the rest. -/
theorem read_codeBits (h : code < 2 ^ width) (rest : List Bool) :
    ¬(codeBits (code, width) ++ rest).length < width ∧
      bitsToNat ((codeBits (code, width) ++ rest).take width) = code ∧
      (codeBits (code, width) ++ rest).drop width = rest := by
  have hlen : (codeBits (code, width)).length = width := codeBits_length _
  refine ⟨?_, ?_, List.drop_left' hlen⟩
  · rw [List.length_append, hlen]
    omega
  · rw [List.take_left' hlen, bitsToNat_codeBits h]

theorem decodeCodes_clear (h : 2 ^ m < 2 ^ width) (rest : List Bool) :
    decodeCodes m (fuel + 1) (codeBits (2 ^ m, width) ++ rest) width table last =
      decodeCodes m fuel rest (m + 1) [] none := by
  obtain ⟨hlen, hcode, hrest⟩ := read_codeBits h rest
  simp only [decodeCodes, if_neg hlen, hcode, hrest, if_true]

theorem decodeCodes_eoi (h : 2 ^ m + 1 < 2 ^ width) (rest : List Bool) :
    decodeCodes m (fuel + 1) (codeBits (2 ^ m + 1, width) ++ rest) width table last = some [] := by
  obtain ⟨hlen, hcode, -⟩ := read_codeBits h rest
  have hne : 2 ^ m + 1 ≠ 2 ^ m := by omega
  simp only [decodeCodes, if_neg hlen, hcode, if_neg hne, if_true]

/-- The width the decoder reads the next code with. -/
def decoderWidth (m : Nat) (table : List (List Byte)) (width : Nat) : Nat :=
  if 2 ^ m + 2 + table.length = 2 ^ width ∧ width < 12 then width + 1 else width

theorem decodeCodes_string {str : List Byte} (h : code < 2 ^ width) (hclear : code ≠ 2 ^ m) (heoi : code ≠ 2 ^ m + 1)
    (hstr : decodeString m code table last = some str) (rest : List Bool) :
    decodeCodes m (fuel + 1) (codeBits (code, width) ++ rest) width table last =
      (decodeCodes m fuel rest (decoderWidth m (decodeTable m table last str) width) (decodeTable m table last str)
        (some str)).map (str ++ ·) := by
  obtain ⟨hlen, hcode, hrest⟩ := read_codeBits h rest
  simp only [decodeCodes, if_neg hlen, hcode, hrest, if_neg hclear, if_neg heoi, hstr, decoderWidth]

end

/-- The decoder widens with the encoder (41_lzw_encoder R199). -/
theorem decoderWidth_codeWidth {m j : Nat} (hm : m ≤ 8) {table : List (List Byte)} (hlen : table.length = j) :
    decoderWidth m table (codeWidth m j) = codeWidth m (j + 1) := by
  have hpos := Nat.two_pow_pos (codeWidth m j)
  rw [codeWidth_succ (by omega), decoderWidth, hlen]
  by_cases h12 : codeWidth m j < 12
  · have hfit := (codeWidth_le_iff (codeWidth_range (by omega) j).1 h12).mp le_rfl
    have hsame : 2 ^ m + 2 + j = 2 ^ codeWidth m j ↔ 2 ^ codeWidth m j - 1 < 2 ^ m + 2 + j := by omega
    simp only [hsame]
  · rw [if_neg (fun h => h12 h.2), if_neg (fun h => h12 h.2)]

/-! ## Codes and strings -/

/-- The code stands for the string: a literal, or an entry of the table. -/
def Stands (m : Nat) (table : List (List Byte)) (code : Nat) (str : List Byte) : Prop :=
  (code < 2 ^ m ∧ str = [BitVec.ofNat 8 code]) ∨ (2 ^ m + 2 ≤ code ∧ table[code - (2 ^ m + 2)]? = some str)

section

variable {m code : Nat} {table : List (List Byte)} {str str' : List Byte}

theorem stands_literal {c : Byte} (h : c.toNat < 2 ^ m) : Stands m table c.toNat [c] :=
  .inl ⟨h, by simp⟩

/-- The entry that has just been added. -/
theorem stands_new (table : List (List Byte)) (str : List Byte) :
    Stands m (table ++ [str]) (2 ^ m + 2 + table.length) str :=
  .inr ⟨by omega, by rw [Nat.add_sub_cancel_left, List.getElem?_concat_length]⟩

theorem Stands.append (h : Stands m table code str) (new : List (List Byte)) : Stands m (table ++ new) code str := by
  refine h.imp_right fun ⟨hge, hstr⟩ => ⟨hge, ?_⟩
  rw [List.getElem?_append_left (List.getElem?_eq_some_iff.mp hstr).1, hstr]

theorem Stands.unique (h : Stands m table code str) (h' : Stands m table code str') : str' = str := by
  rcases h with ⟨hlt, rfl⟩ | ⟨hge, hstr⟩ <;> rcases h' with ⟨hlt', rfl⟩ | ⟨hge', hstr'⟩
  · rfl
  · omega
  · omega
  · exact Option.some.inj (hstr'.symm.trans hstr)

theorem Stands.ne_clear_eoi (h : Stands m table code str) : code ≠ 2 ^ m ∧ code ≠ 2 ^ m + 1 := by
  rcases h with ⟨hlt, -⟩ | ⟨hge, -⟩ <;> omega

theorem Stands.code_lt (h : Stands m table code str) : code < 2 ^ m + 2 + table.length := by
  rcases h with ⟨hlt, -⟩ | ⟨hge, hstr⟩
  · omega
  · have := (List.getElem?_eq_some_iff.mp hstr).1
    omega

/-- The decoder reads a code right that stands for a string of the table with the entry the code completes, the entry
itself among them: the one case where the code is not in the decoder's table yet. -/
theorem decodeString_of_stands {last : Option (List Byte)} (hlast : ∀ p, last = some p → p ≠ [])
    (h : Stands m (decodeTable m table last str) code str) : decodeString m code table last = some str := by
  rcases h with ⟨hlt, rfl⟩ | ⟨hge, hstr⟩
  · exact if_pos hlt
  have hlit : ¬code < 2 ^ m := by omega
  have hknown : table[code - (2 ^ m + 2)]? = some str → decodeString m code table last = some str := fun hs => by
    rw [decodeString, if_neg hlit, hs]
  cases last with
  | none => exact hknown hstr
  | some p =>
    rw [decodeTable] at hstr
    split at hstr
    · by_cases hin : code - (2 ^ m + 2) < table.length
      · exact hknown (by rwa [List.getElem?_append_left hin] at hstr)
      · obtain ⟨hidx, -⟩ := List.getElem?_eq_some_iff.mp hstr
        rw [List.length_append, List.length_singleton] at hidx
        have hnew : code - (2 ^ m + 2) = table.length := by omega
        rw [hnew, List.getElem?_concat_length, Option.some.injEq] at hstr
        have hfirst : str.take 1 = p.take 1 := by
          rw [← hstr, List.take_append_of_le_length (List.length_pos_iff.mpr (hlast p rfl))]
        rw [decodeString, if_neg hlit, hnew, List.getElem?_length, if_pos (by omega), Option.map_some, ← hfirst, hstr]
    · exact hknown hstr

/-- A string's first index is all the table needs of it. -/
theorem decodeTable_append (m : Nat) (table : List (List Byte)) (last : Option (List Byte)) (hne : str ≠ [])
    (more : List Byte) : decodeTable m table last (str ++ more) = decodeTable m table last str := by
  unfold decodeTable
  rw [List.take_append_of_le_length (List.length_pos_iff.mpr hne)]

end

/-! ## Encoder and decoder in step -/

/-- Before a code, j codes after a CLEAR: `str` is the string the encoder has collected and `ent` its code, and the
encoder's dictionary is the decoder's table with the entry that the first index of `str` completes. -/
structure InStep (m j ent : Nat) (dict : List ((Nat × Nat) × Nat)) (table : List (List Byte))
    (last : Option (List Byte)) (str : List Byte) : Prop where
  room : 2 ^ m + 2 + j ≤ 4096
  assigned : (decodeTable m table last str).length = j
  lastNe : ∀ p, last = some p → p ≠ []
  strNe : str ≠ []
  ent : Stands m (decodeTable m table last str) ent str
  dict : ∀ e c v, dict.lookup (e, c) = some v → ∃ s, Stands m (decodeTable m table last str) e s ∧
    Stands m (decodeTable m table last str) v (s ++ [BitVec.ofNat 8 c])

/-- After a CLEAR, at the first index. -/
theorem inStep_start {m : Nat} (hm : m ≤ 8) {c : Byte} (hc : c.toNat < 2 ^ m) : InStep m 0 c.toNat [] [] none [c] where
  room := by have := Nat.pow_le_pow_right (n := 2) (by decide) hm; omega
  assigned := rfl
  lastNe := nofun
  strNe := nofun
  ent := stands_literal hc
  dict := nofun

section

variable {m j ent : Nat} {dict : List ((Nat × Nat) × Nat)} {table : List (List Byte)} {last : Option (List Byte)}
  {str : List Byte} {c : Byte}

/-- The next index makes a string the encoder knows (41_lzw_encoder R185). -/
theorem InStep.hit (h : InStep m j ent dict table last str) {v : Nat} (hv : dict.lookup (ent, c.toNat) = some v) :
    InStep m j v dict table last (str ++ [c]) := by
  obtain ⟨hroom, hassigned, hlastNe, hstrNe, hent, hdict⟩ := h
  obtain ⟨s, hs, hsv⟩ := hdict ent c.toNat v hv
  rw [hent.unique hs, BitVec.ofNat_toNat, BitVec.setWidth_eq] at hsv
  have htable := decodeTable_append m table last hstrNe [c]
  exact ⟨hroom, htable ▸ hassigned, hlastNe, by simp, htable ▸ hsv, htable ▸ hdict⟩

/-- The next index makes a string the encoder does not know, and gives it a code (41_lzw_encoder R186). -/
theorem InStep.insert (h : InStep m j ent dict table last str) (hc : c.toNat < 2 ^ m) (hroom : 2 ^ m + 2 + j < 4096) :
    InStep m (j + 1) c.toNat (((ent, c.toNat), 2 ^ m + 2 + j) :: dict) (decodeTable m table last str)
      (some str) [c] := by
  obtain ⟨-, hassigned, -, hstrNe, hent, hdict⟩ := h
  generalize decodeTable m table last str = full at hassigned hent hdict ⊢
  have htable : decodeTable m full (some str) [c] = full ++ [str ++ [c]] := if_pos (by rw [hassigned]; exact hroom)
  refine ⟨hroom, ?_, fun p hp => Option.some.inj hp ▸ hstrNe, nofun, stands_literal hc, ?_⟩
  · rw [htable, List.length_append, hassigned, List.length_singleton]
  · intro e d v hv
    rw [htable]
    rw [List.lookup_cons] at hv
    split at hv
    · rename_i heq
      obtain ⟨rfl, rfl⟩ := Prod.mk.inj (beq_iff_eq.mp heq)
      cases hv
      refine ⟨str, hent.append _, ?_⟩
      rw [BitVec.ofNat_toNat, BitVec.setWidth_eq, ← hassigned]
      exact stands_new full _
    · obtain ⟨s, hs, hsv⟩ := hdict e d v hv
      exact ⟨s, hs.append _, hsv.append _⟩

/-- The decoder reads the string's code with the encoder's width and goes on with the encoder's next width. -/
theorem InStep.decodeCodes (h : InStep m j ent dict table last str) (hm : m ≤ 8) (fuel : Nat) (rest : List Bool) :
    decodeCodes m (fuel + 1) (codeBits (ent, codeWidth m j) ++ rest) (codeWidth m j) table last =
      (Spec.decodeCodes m fuel rest (codeWidth m (j + 1)) (decodeTable m table last str) (some str)).map
        (str ++ ·) := by
  obtain ⟨hclear, heoi⟩ := h.ent.ne_clear_eoi
  have hlt := h.ent.code_lt
  rw [h.assigned] at hlt
  rw [decodeCodes_string (lt_two_pow_codeWidth hm h.room hlt) hclear heoi (decodeString_of_stands h.lastNe h.ent),
    decoderWidth_codeWidth hm h.assigned]

end

/-- The codes after a CLEAR give the collected string and the indices still to come, by induction on these. -/
theorem decodeCodes_codesFrom {m : Nat} (hm2 : 2 ≤ m) (hm : m ≤ 8) {cs : List Byte} (hcs : ∀ b ∈ cs, b.toNat < 2 ^ m)
    {j ent : Nat} {dict : List ((Nat × Nat) × Nat)} {table : List (List Byte)} {last : Option (List Byte)}
    {str : List Byte} (h : InStep m j ent dict table last str) (spare : Nat) (pad : List Bool) :
    decodeCodes m ((codesFrom m cs ent dict j).length + spare) (streamBits (codesFrom m cs ent dict j) ++ pad)
      (codeWidth m j) table last = some (str ++ cs) := by
  induction cs generalizing j ent dict table last str with
  | nil =>
    obtain ⟨hge, hle⟩ := codeWidth_range (show m ≤ 11 by omega) (j + 1)
    obtain ⟨heoi, -⟩ := fits_of_le_eoi hm2 (le_refl (2 ^ m + 1)) hge hle
    simp only [codesFrom, streamBits_cons, List.length_cons, List.length_nil,
      Nat.add_right_comm _ 1 spare, List.append_assoc]
    rw [h.decodeCodes hm, decodeCodes_eoi heoi]
    rfl
  | cons c cs ih =>
    obtain ⟨hc, hcs'⟩ := List.forall_mem_cons.mp hcs
    cases hv : dict.lookup (ent, c.toNat) with
    | some v =>
      simp only [codesFrom, hv]
      rw [ih hcs' (h.hit hv), List.append_assoc, List.singleton_append]
    | none =>
      simp only [codesFrom, hv, streamBits_cons, List.length_cons, Nat.add_right_comm _ 1 spare, List.append_assoc]
      rw [h.decodeCodes hm]
      split_ifs with hroom
      · rw [ih hcs' (h.insert hc hroom)]
        rfl
      · have hwidth : codeWidth m (j + 1) = 12 := codeWidth_eq_twelve (by omega) (by omega)
        have hclear : 2 ^ m < 2 ^ 12 := Nat.pow_lt_pow_right (by decide) (by omega)
        have hrest := ih hcs' (inStep_start hm hc)
        rw [codeWidth_zero hm2 hm] at hrest
        rw [hwidth, streamBits_cons, List.length_cons, Nat.add_right_comm _ 1 spare, List.append_assoc,
          decodeCodes_clear hclear, hrest]
        rfl

/-- The whole code stream, whatever bits follow it. -/
theorem decodeCodes_codeStream {m : Nat} (hm2 : 2 ≤ m) (hm : m ≤ 8) {ids : List Byte}
    (hids : ∀ b ∈ ids, b.toNat < 2 ^ m) (spare : Nat) (pad : List Bool) :
    decodeCodes m ((codeStream m ids).length + spare) (streamBits (codeStream m ids) ++ pad) (m + 1) [] none =
      some ids := by
  have hclear : 2 ^ m < 2 ^ (m + 1) := Nat.pow_lt_pow_right (by decide) (Nat.lt_succ_self m)
  cases ids with
  | nil =>
    obtain ⟨heoi, -⟩ := fits_of_le_eoi hm2 (le_refl (2 ^ m + 1)) (le_refl (m + 1)) (by omega)
    simp only [codeStream_nil hm2 hm, streamBits_cons, List.length_cons, List.length_nil,
      Nat.add_right_comm _ 1 spare, List.append_assoc]
    rw [decodeCodes_clear hclear, decodeCodes_eoi heoi]
  | cons c cs =>
    obtain ⟨hc, hcs⟩ := List.forall_mem_cons.mp hids
    have hrest := decodeCodes_codesFrom hm2 hm hcs (inStep_start hm hc) spare pad
    rw [codeWidth_zero hm2 hm] at hrest
    rw [codeStream_cons, streamBits_cons, List.length_cons, Nat.add_right_comm _ 1 spare, List.append_assoc,
      decodeCodes_clear hclear, hrest]
    rfl

/-- A stream has at least as many bits as codes. -/
theorem codeStream_length_le {m : Nat} (hm2 : 2 ≤ m) (hm : m ≤ 8) {ids : List Byte}
    (hids : ∀ b ∈ ids, b.toNat < 2 ^ m) : (codeStream m ids).length ≤ (streamBits (codeStream m ids)).length := by
  rw [streamBits_length, ← List.length_map (f := Prod.snd)]
  refine List.length_le_sum_of_one_le _ fun w hw => ?_
  obtain ⟨cw, hcw, rfl⟩ := List.mem_map.mp hw
  obtain ⟨-, hge, -⟩ := fits_of_mem_codeStream hm2 hm hids cw hcw
  omega

/-- A standard decoder reads the indices from the sub-blocks of their code stream. -/
theorem gifDecode_subBlocks {m : Nat} (hm2 : 2 ≤ m) (hm : m ≤ 8) {ids : List Byte} (hids : ∀ b ∈ ids, b.toNat < 2 ^ m) :
    gifDecode m (subBlocks (packBits (streamBits (codeStream m ids))) ++ [0]) = some ids := by
  obtain ⟨pad, hbits⟩ := exists_payloadBits_packBits (streamBits (codeStream m ids))
  have hcodes := codeStream_length_le hm2 hm hids
  have hfuel : (payloadBits (packBits (streamBits (codeStream m ids)))).length = (codeStream m ids).length +
      ((streamBits (codeStream m ids)).length - (codeStream m ids).length + pad.length) := by
    rw [hbits, List.length_append]
    omega
  rw [gifDecode, unframe_subBlocks (by rw [List.length_append, subBlocks_length, List.length_singleton]; omega)]
  simp only [hfuel]
  rw [hbits]
  exact decodeCodes_codeStream hm2 hm hids _ pad

/-- Settles O42: the image data is the framed code stream, from which the decoder reads the indices. -/
theorem decodingImageDataGivesIndices : Obligations.DecodingImageDataGivesIndices := by
  intro m ids hm2 hm hids
  have hframed := fun hdr => Machine.imageDataIsFramedCodeStream m hdr ids hm2 hm hids
  refine ⟨?_, ?_⟩
  · rw [hframed, framed]
    exact gifDecode_subBlocks hm2 hm hids
  · rw [hframed, hframed]
    rfl

end Sys2Proof.Spec

/-! RESET as a command. -/

namespace Sys2Proof.Machine

/-- RESET has one outcome, with no check before it: the failed state does not refuse it (42_control R230). -/
@[simp] theorem exec_reset (s : State) : exec .reset s = .next (resetRegisters s) := rfl

/-- Settles O10: RESET is `resetRegisters`, which writes each register its reset value and no other field. -/
theorem resetCompletes : Obligations.ResetCompletes := by
  intro s
  rw [exec_reset, resetRegisters, noTableResult]

end Sys2Proof.Machine

/-! How a command ends with an error (60_exceptions R241 to R248). -/

namespace Sys2Proof.Machine

open Sys2Proof.Spec

/-- ERR_INFO holds a position of the frame, and the pixel count itself, exactly (10_state R51). -/
theorem toNat_ofNat_of_le_pixelCount {s : State} {k : Nat} (h : k ≤ s.pixelCount) :
    (BitVec.ofNat 32 k).toNat = k := by
  rw [BitVec.toNat_ofNat, Nat.mod_eq_of_lt (h.trans_lt (pixelCount_lt s))]

/-- A property fails first at one place only. -/
theorem eq_of_first_not {P : Nat → Prop} {i j : Nat} (hi : ∀ l < i, P l) (hi' : ¬P i) (hj : ∀ l < j, P l)
    (hj' : ¬P j) : i = j :=
  Nat.le_antisymm (Nat.le_of_not_gt fun h => hj' (hi j h)) (Nat.le_of_not_gt fun h => hi' (hj i h))

/-! ## Illegal words, the idle core and the failed state -/

/-- A word that decodes to no command ends with ILLCMD (60_exceptions R241). -/
theorem hostStep_cmdWrite_illegal {w : Word} (h : ¬∃ i, decode w = .ok i) (s : State) :
    hostStep (cmdWrite w) s = .next (raise .illCmd 0 s) := by
  rcases runCommand_cases w s with ⟨i, hi, -⟩ | ⟨_, -, e⟩
  · exact absurd ⟨i, hi⟩ h
  · exact e

/-- Settles O6: none of the four forms is a legal word, and a word that is not legal raises ILLCMD. -/
theorem illegalWordRaisesIllcmd : Obligations.IllegalWordRaisesIllcmd := by
  refine ⟨rfl, fun s w rest hs hill => (step_of_host hs).trans (hostStep_cmdWrite_illegal ?_ _)⟩
  rw [legalWordsByBits w]
  rintro (⟨hopc, hres⟩ | ⟨hopc, hupper⟩)
  · rcases hill with h | h | ⟨-, h⟩ | ⟨h, -⟩
    · exact absurd (hopc.symm.trans h) (by decide)
    · exact absurd (hopc ▸ h) (by decide)
    · exact h hres
    · exact h hopc
  · have hother : w.extractLsb' 0 8 ≠ 0#8 ∧ ¬4#8 < w.extractLsb' 0 8 ∧ w.extractLsb' 0 8 ≠ 4#8 := by
      rcases hopc with e | e | e <;> rw [e] <;> decide
    obtain ⟨hzero, hgt, hfour⟩ := hother
    rcases hill with h | h | ⟨h, -⟩ | ⟨-, h⟩
    · exact hzero h
    · exact hgt h
    · exact hfour h
    · exact h hupper

/-- Settles O7: with no access pending there is nothing to perform. -/
theorem idleStepKeepsState : Obligations.IdleStepKeepsState := by
  intro s hs
  rw [step, hs]

/-- Settles O13: each of the three commands decides FAILED before anything else. -/
theorem failedStateRefusesCommands : Obligations.FailedStateRefusesCommands := by
  refine ⟨rfl, fun s i hf hi => ?_⟩
  cases i with
  | reset => exact absurd rfl hi
  | quant => exact unlessFailed_of_fail hf
  | findc => exact unlessFailed_of_fail hf
  | encode scs hdr => exact unlessFailed_of_fail hf

/-! ## The checks of QUANT and ENCODE, in their order (41_lzw_encoder R181) -/

section
variable {s : State} {scs : Nat}

theorem execQuant_of_large (hf : s.fail = false) (hn : s.maxPix < s.pixelCount) :
    execQuant s = .next (raise .size (BitVec.ofNat 32 s.pixelCount) s) := by
  rw [execQuant, unlessFailed_of_not hf, if_pos hn]

theorem execEncode_of_large (hdr : Bool) (hf : s.fail = false) (hn : s.maxPix < s.pixelCount) :
    execEncode scs hdr s = .next (raise .size (BitVec.ofNat 32 s.pixelCount) s) := by
  rw [execEncode, unlessFailed_of_not hf, if_pos hn]

theorem execEncode_of_scs_gt (hdr : Bool) (hf : s.fail = false) (hn : s.pixelCount ≤ s.maxPix) (hscs : 8 < scs) :
    execEncode scs hdr s = .next (raise .codeSize 0 s) := by
  have hcode : Config.maxScs < scs := hscs
  rw [execEncode, unlessFailed_of_not hf, if_neg (Nat.not_lt.mpr hn), if_pos hcode]

theorem execEncode_of_no_stream (hdr : Bool) (hf : s.fail = false) (hn : s.pixelCount ≤ s.maxPix) (hscs : scs ≤ 8)
    (hiv : s.iv = false) : execEncode scs hdr s = .next (raise .notValid 0 s) := by
  have hlegal : ¬Config.maxScs < scs := Nat.not_lt.mpr hscs
  rw [execEncode, unlessFailed_of_not hf, if_neg (Nat.not_lt.mpr hn), if_neg hlegal, if_neg (by simp [hiv])]

theorem execEncode_of_outOfRange (hdr : Bool) {k : Nat} (hf : s.fail = false) (hn : s.pixelCount ≤ s.maxPix)
    (hscs : scs ≤ 8) (hiv : s.iv = true) (hscan : indexScan s (2 ^ max 2 scs) s.pixelCount 0 = .outOfRange k) :
    execEncode scs hdr s = .next (raise .indexRange (BitVec.ofNat 32 k) s) := by
  have hlegal : ¬Config.maxScs < scs := Nat.not_lt.mpr hscs
  rw [← clearCode_minCodeSize] at hscan
  rw [execEncode, unlessFailed_of_not hf, if_neg (Nat.not_lt.mpr hn), if_neg hlegal, if_pos hiv, hscan]

/-- The pre-scan ends at the first index at or above CLEAR. -/
theorem indexScan_of_first_bad {clear n k : Nat} {b : Byte} (hk : k < n) (hb : s.idx.read k = some b)
    (hbad : clear ≤ b.toNat) (hbefore : ∀ j < k, ∃ a, s.idx.read j = some a ∧ a.toNat < clear) :
    indexScan s clear n 0 = .outOfRange k := by
  have hnot : ¬∃ a, s.idx.read k = some a ∧ a.toNat < clear := by simpa [hb] using hbad
  rcases indexScan_cases s clear n 0 with ⟨ids, -, hlen, hids⟩ | ⟨j, -, b', e, hb', hbad', hbefore'⟩ |
    ⟨j, -, -, hnone, hbefore'⟩
  · obtain ⟨hread, hlt⟩ := hids k (by omega)
    rw [Nat.zero_add] at hread
    rw [Option.some.inj (hread.symm.trans hb)] at hlt
    exact absurd hbad (Nat.not_le.mpr hlt)
  · simp only [Nat.zero_add] at e hb' hbefore'
    rw [e, eq_of_first_not hbefore' (by simpa [hb'] using hbad') hbefore hnot]
  · simp only [Nat.zero_add] at hnone hbefore'
    rw [eq_of_first_not hbefore' (by simp [hnone]) hbefore hnot, hb] at hnone
    cases hnone

end

/-- Settles O14: SIZE is the first check after FAILED of both commands. -/
theorem sizeErrorOfLargeFrames : Obligations.SizeErrorOfLargeFrames :=
  ⟨rfl, fun s hf hn => ⟨BitVec.ofNat 32 s.pixelCount, toNat_ofNat_of_le_pixelCount le_rfl, execQuant_of_large hf hn,
    fun _ hdr => execEncode_of_large hdr hf hn⟩⟩

/-- Settles O15: CODESIZE is the check after SIZE. -/
theorem codeSizeErrorOfLargeScs : Obligations.CodeSizeErrorOfLargeScs :=
  ⟨rfl, fun _ _ hdr hf hn hscs => execEncode_of_scs_gt hdr hf hn hscs⟩

/-- Settles O16: NOTVALID is the check after CODESIZE. -/
theorem notValidErrorWithoutStream : Obligations.NotValidErrorWithoutStream :=
  ⟨rfl, fun _ _ hdr hf hn hscs hiv => execEncode_of_no_stream hdr hf hn hscs hiv⟩

/-- Settles O17: the pre-scan is the last check, and it ends at the first index out of range. -/
theorem indexRangeErrorAtFirstBadIndex : Obligations.IndexRangeErrorAtFirstBadIndex :=
  ⟨rfl, fun _ _ hdr k _ hf hn hscs hiv hk hb hbad hbefore => ⟨BitVec.ofNat 32 k, toNat_ofNat_of_le_pixelCount hk.le,
    execEncode_of_outOfRange hdr hf hn hscs hiv (indexScan_of_first_bad hk hb hbad hbefore)⟩⟩

/-! ## PALETTE_OVERFLOW -/

/-- A scan of `n + m` pixels whose first `n` have their indices goes on with the other `m`. -/
theorem quantScan_add {s : State} {n k : Nat} {q q' : Quantizer} (h : quantScan s n k q = .done q') (m : Nat) :
    quantScan s (n + m) k q = quantScan s m (k + n) q' := by
  induction n generalizing k q with
  | zero =>
    cases h
    rw [Nat.zero_add, Nat.add_zero]
  | succ n ih =>
    rw [Nat.add_right_comm n 1 m]
    simp only [quantScan] at h ⊢
    split at h
    · cases h
    · split at h
      · cases h
      · rw [Nat.add_comm n 1, ← Nat.add_assoc]
        exact ih h

/-- With 255 colors before it a new color finds no slot (40_quantizer R154). -/
theorem Quantizer.Scanned.pixel_overflow {q : Quantizer} {cs : List Rgb} {c : Rgb} (h : q.Scanned cs)
    (hfull : (firstSeen cs).length = 255) (hc : c ∉ cs) : quantPixel cs.length c q = none := by
  have hfree : q.nextFree = Config.overflowAt := by rw [h.nextFree, hfull, Config.overflowAt]
  simp only [quantPixel, h.unknown c hc, if_pos hfree]

/-- A frame's scan ends at the first pixel that needs a 257th slot. -/
theorem quantScan_of_overflow {s : State} {cs : List Rgb} {c : Rgb} {n : Nat} (idx : Memory) (hlt : cs.length < n)
    (hcs : ∀ k (h : k < cs.length), readPixel k s = .ok cs[k]) (hfull : (firstSeen cs).length = 255)
    (hc : readPixel cs.length s = .ok c) (hnew : c ∉ cs) :
    quantScan s n 0 (quantStart idx) = .overflow cs.length := by
  obtain ⟨q, hscan, hq⟩ := (quantStart_scanned idx).scan (s := s) cs (by simpa using hcs) hfull.le
  rw [List.length_nil] at hscan
  rw [List.nil_append] at hq
  obtain ⟨m, rfl⟩ : ∃ m, n = cs.length + (m + 1) := ⟨n - cs.length - 1, by omega⟩
  rw [quantScan_add hscan, Nat.zero_add]
  simp only [quantScan, hc, hq.pixel_overflow hfull hnew]

/-- Settles O19: the scan overflows at that pixel, and the error's effects are the ones listed. -/
theorem quantPaletteOverflow : Obligations.QuantPaletteOverflow := by
  refine ⟨rfl, fun s cs c hf hn hlt hcs hfull hc hnew => ?_⟩
  have hexec : exec .quant s = .next (raise .paletteOverflow (BitVec.ofNat 32 cs.length) s) := by
    rw [exec, execQuant_eq_outcome hf hn, quantScan_of_overflow s.idx hlt hcs hfull hc hnew]
    rfl
  exact ⟨_, hexec, rfl, toNat_ofNat_of_le_pixelCount hlt.le, Memory.read_nil, Memory.read_nil,
    fun a => s.idx.read_dropBelow s.pixelCount a, fun a => s.pix.read_dropBelow (3 * s.pixelCount) a⟩

/-! ## SINK_FAIL -/

/-- The run phase ends with SINK_FAIL when the sink accepts `n` bytes and rejects the next. -/
theorem encodeRun_of_reject {s : State} (m : Nat) {bytes : List Byte} {n : Nat} (hn : n < bytes.length)
    (hacc : ∀ j < n, s.sink.answerAt j = .accept) (hrej : s.sink.answerAt n = .reject) :
    encodeRun m bytes s =
      .next (raise .sinkFail (encByteCount (s.sink.offered + (n + 1)) n)
        (encodeProgress m n (s.sink.after (bytes.take n) (n + 1)) s)) := by
  have hfirst : ∀ j, (∀ i < j, s.sink.answerAt i = .accept) → s.sink.answerAt j ≠ .accept → j = n :=
    fun j hbefore hj => eq_of_first_not hbefore hj hacc (by simp [hrej])
  rcases encodeRun_cases m bytes s with ⟨hall, -⟩ | ⟨j, -, hbefore, hj, e⟩ | ⟨j, -, hbefore, hj, -⟩
  · rw [hall n hn] at hrej
    cases hrej
  · rwa [hfirst j hbefore (by simp [hj])] at e
  · rw [← hfirst j hbefore (by simp [hj]), hj] at hrej
    cases hrej

/-- Settles O31: past the checks the run phase offers the image data, and the error's effects are the ones listed. -/
theorem encodeSinkFailure : Obligations.EncodeSinkFailure := by
  refine ⟨rfl, fun s scs hdr ids n hf hn hscs hiv hids hclear hlt hacc hrej => ?_⟩
  have hexec := (execEncode_eq_run hdr hf hn hscs hiv hids hclear).trans (encodeRun_of_reject _ hlt hacc hrej)
  refine ⟨_, hexec, rfl, fun h32 => ?_, ?_, Memory.read_nil, Memory.read_nil,
    fun a => s.idx.read_dropBelow s.pixelCount a, rfl⟩
  · rw [raise_sinkFail_encBytes, encodeProgress_encBytes, encByteCount_of_lt h32, BitVec.toNat_ofNat,
      Nat.mod_eq_of_lt h32]
  · rw [raise_sinkFail_encMcs, encodeProgress_encMcs, BitVec.toNat_ofNat]
    omega

end Sys2Proof.Machine
